-- ==== Sys2Proof/Word.lean ====
section
/-! DEFINITION. The machine's word and byte (00_scope.md R5, R8). -/

namespace Sys2Proof

/-- A register, a memory word, an address, an instruction word: 16 bits (R5). Addition of words is modulo 2^16 (R8). -/
abbrev Word := BitVec 16

/-- A byte of the console streams or of an image file (R11, R43). Memory holds no bytes. -/
abbrev Byte := BitVec 8

end Sys2Proof
end

