-- ==== Sys2Proof/Config.lean ====
section
/-! DEFINITION. The fixed parameters of this hardware (00_scope.md R5) and its open parameters (R6).

An open parameter with no value in the spec is an `opaque` constant: nothing in Lean can evaluate it, so every
statement holds for every value of it. -/

namespace Sys2Proof.Config

/-- The memory has 65536 words; its addresses are exactly the 16-bit values (R5, R40). -/
abbrev memoryWords : Nat := 65536

/-- Execution always starts at 0x3000 (R5, R181; 90_conflicts.md C3). -/
def startPc : Word := 0x3000

/-- COND when the flag set is POSITIVE, bit 0 (R26). -/
def condPositive : Word := 0x0001
/-- COND when the flag set is ZERO, bit 1 (R26). -/
def condZero : Word := 0x0002
/-- COND when the flag set is NEGATIVE, bit 2 (R26). -/
def condNegative : Word := 0x0004

/-- What GETC and IN see at the end of input or on a read error (R5, R141). -/
def inputEndByte : Byte := 0xFF

/-- STRICT_UNUSED_BITS (R6, R75): whether a word whose unread bits are not canonical is refused. The default is `false`.
DESIGN CHOICE (the spec's decision D4; log entry 4): unsafe if the hardware reads one of those bits. -/
def strictUnusedBits : Bool := false

/-- IN_PROMPT (R6, R153, D8): the bytes IN emits before it reads. Open: no value. Log entry 13. -/
opaque inPrompt : List Byte

/-- HALT_NOTICE (R6, R155, D9): the bytes HALT emits. Open: no value. Log entry 13. -/
opaque haltNotice : List Byte

/-- EXIT_SUCCESS (R6, R166, D15): the host's numeric success indication. Open: no value. Log entry 14. -/
opaque exitSuccess : Int

/-- EXIT_FAILURE (R6, R166, D15): the host's numeric failure indication. Open: no value. Log entry 14. -/
opaque exitFailure : Int

end Sys2Proof.Config
end

