-- ==== Sys2Proof/Syntax.lean ====
section
/-! DEFINITION. The instructions: one constructor per row of spec/opcode_table.json, in the table's order. The bits no
field reads (30_encoding.md R75) are not part of an instruction; the decoder deals with them. -/

namespace Sys2Proof

/-- A general register id: 3 bits, 0 to 7 (10_state.md R21). PC and COND are named by no field (30_encoding.md R74). -/
abbrev Reg := Fin 8

/-- The 16 opcode values, `ir[15:12]`, as a closed type (30_encoding.md R61, R70). Constructors stand in numeric order;
opcode 0 is the halt sentinel. -/
inductive Opcode where
  | sentinel | add | ld | st | jsr | and | ldr | str | rti | not | ldi | sti | jmp | res | lea | trap
  deriving DecidableEq, Repr

/-- An instruction with its operands. An offset or an immediate is the encoded field, not yet extended (30_encoding.md R73). -/
inductive Instr where
  /-- Opcode 0: the halt sentinel (40_dispatch.md R91). -/
  | sentinel
  /-- BR, the control-transfer unit's operation; never dispatched (43_control.md R130, R131). `conds` is n, z, p. -/
  | br (conds : BitVec 3) (pcOffset9 : BitVec 9)
  /-- ADD, register mode (41_alu.md R100). -/
  | addReg (dr sr1 sr2 : Reg)
  /-- ADD, immediate mode (R101). -/
  | addImm (dr sr1 : Reg) (imm5 : BitVec 5)
  /-- LD (42_load_store.md R111). -/
  | ld (dr : Reg) (pcOffset9 : BitVec 9)
  /-- ST (R112). -/
  | st (sr : Reg) (pcOffset9 : BitVec 9)
  /-- JSRR (43_control.md R135). -/
  | jsrr (baseR : Reg)
  /-- JSR (R134). -/
  | jsr (pcOffset11 : BitVec 11)
  /-- AND, register mode (41_alu.md R102). -/
  | andReg (dr sr1 sr2 : Reg)
  /-- AND, immediate mode (R103). -/
  | andImm (dr sr1 : Reg) (imm5 : BitVec 5)
  /-- LDR (42_load_store.md R115). -/
  | ldr (dr baseR : Reg) (offset6 : BitVec 6)
  /-- STR (R116). -/
  | str (sr baseR : Reg) (offset6 : BitVec 6)
  /-- RTI, a no-op (40_dispatch.md R93). -/
  | rti
  /-- NOT (41_alu.md R104). -/
  | not (dr sr1 : Reg)
  /-- LDI (42_load_store.md R113). -/
  | ldi (dr : Reg) (pcOffset9 : BitVec 9)
  /-- STI (R114). -/
  | sti (sr : Reg) (pcOffset9 : BitVec 9)
  /-- JMP; RET is JMP with BaseR = 7 (43_control.md R132, R133). -/
  | jmp (baseR : Reg)
  /-- RES, a no-op (40_dispatch.md R94). -/
  | res
  /-- LEA (42_load_store.md R117). -/
  | lea (dr : Reg) (pcOffset9 : BitVec 9)
  /-- TRAP x20 (44_trap.md R150). -/
  | trapGetc
  /-- TRAP x21 (R151). -/
  | trapOut
  /-- TRAP x22 (R152). -/
  | trapPuts
  /-- TRAP x23 (R153). -/
  | trapIn
  /-- TRAP x24 (R154). -/
  | trapPutsp
  /-- TRAP x25 (R155). -/
  | trapHalt
  /-- TRAP with a vector outside 0x20 to 0x25 (R156). -/
  | trapInvalid (trapvect8 : BitVec 8)
  deriving DecidableEq, Repr

end Sys2Proof
end

