-- ==== Sys2Proof/WellFormed.lean ====
section
/-! DEFINITION. Which terms of `Instr` are instructions, and which of them the dispatch loop can run. -/

namespace Sys2Proof

/-- The valid trap vectors, 0x20 to 0x25 (30_encoding.md R71). -/
def validTrapVector (v : BitVec 8) : Bool :=
  0x20 ≤ v.toNat && v.toNat ≤ 0x25

/-- Every field's width is in its type. What is left to check: the row of an invalid vector carries no valid one
(44_trap.md R156). -/
def Instr.wf : Instr → Bool
  | .trapInvalid v => !validTrapVector v
  | _ => true

/-- Whether a fetched word can be this instruction: all but BR, whose only opcode is the halt sentinel
(43_control.md R131, 30_encoding.md R77; the table's "dispatched"). -/
def Instr.dispatched : Instr → Bool
  | .br _ _ => false
  | _ => true

end Sys2Proof
end

