-- ==== Sys2Proof/Decode.lean ====
section
/-! DEFINITION. The decoder, total on every 16-bit word (30_encoding.md R77), and after it the encoder. -/

namespace Sys2Proof

/-! ## Fields (30_encoding.md R62, R63; 00_scope.md R12) -/

/-- `w[lo+len-1:lo]` (R7). -/
def field (w : Word) (lo len : Nat) : BitVec len := w.extractLsb' lo len

/-- The register a 3-bit field value names (R74). -/
def Reg.ofBits (b : BitVec 3) : Reg := b.toFin
/-- The 3-bit field value that names a register. -/
def Reg.bits (r : Reg) : BitVec 3 := BitVec.ofFin r

/-- DR, or SR of a store: `ir[11:9]`. -/
def fieldDR (w : Word) : Reg := Reg.ofBits (field w 9 3)
/-- SR1, or BaseR: `ir[8:6]`. -/
def fieldSR1 (w : Word) : Reg := Reg.ofBits (field w 6 3)
/-- SR2: `ir[2:0]`. -/
def fieldSR2 (w : Word) : Reg := Reg.ofBits (field w 0 3)
/-- The mode bit of ADD and AND: `ir[5]`. -/
def fieldMode (w : Word) : Bool := w.getLsbD 5
/-- The L bit of JSR/JSRR: `ir[11]`. -/
def fieldL (w : Word) : Bool := w.getLsbD 11
/-- The condition bits n, z, p of BR: `ir[11:9]` (R64). -/
def fieldConds (w : Word) : BitVec 3 := field w 9 3
/-- `ir[4:0]` (R63, decision D3). -/
def fieldImm5 (w : Word) : BitVec 5 := field w 0 5
/-- `ir[5:0]`. -/
def fieldOffset6 (w : Word) : BitVec 6 := field w 0 6
/-- `ir[8:0]`. -/
def fieldPCoffset9 (w : Word) : BitVec 9 := field w 0 9
/-- `ir[10:0]` (R63, decision D3). -/
def fieldPCoffset11 (w : Word) : BitVec 11 := field w 0 11
/-- `ir[7:0]` of a TRAP (R71). -/
def fieldTrapvect8 (w : Word) : BitVec 8 := field w 0 8

/-! ## The opcode map (30_encoding.md R70) -/

/-- The total map from the 4-bit opcode to its operation (R61, R70). The numbers of the thirteen opcodes other than
0, 8 and 13 are the spec's decision D1 (PRESUMED, log entry 1). -/
def Opcode.ofBits (b : BitVec 4) : Opcode :=
  match b.getLsbD 3, b.getLsbD 2, b.getLsbD 1, b.getLsbD 0 with
  | false, false, false, false => .sentinel
  | false, false, false, true => .add
  | false, false, true, false => .ld
  | false, false, true, true => .st
  | false, true, false, false => .jsr
  | false, true, false, true => .and
  | false, true, true, false => .ldr
  | false, true, true, true => .str
  | true, false, false, false => .rti
  | true, false, false, true => .not
  | true, false, true, false => .ldi
  | true, false, true, true => .sti
  | true, true, false, false => .jmp
  | true, true, false, true => .res
  | true, true, true, false => .lea
  | true, true, true, true => .trap

/-- The 4-bit number of an opcode (R70). -/
def Opcode.bits : Opcode → BitVec 4
  | .sentinel => 0x0
  | .add => 0x1
  | .ld => 0x2
  | .st => 0x3
  | .jsr => 0x4
  | .and => 0x5
  | .ldr => 0x6
  | .str => 0x7
  | .rti => 0x8
  | .not => 0x9
  | .ldi => 0xA
  | .sti => 0xB
  | .jmp => 0xC
  | .res => 0xD
  | .lea => 0xE
  | .trap => 0xF

/-- The operation in `ir[15:12]`. -/
def opcodeOf (w : Word) : Opcode := Opcode.ofBits (field w 12 4)

/-! ## Decoding -/

/-- The trap vectors (30_encoding.md R71). -/
def decodeTrap (v : BitVec 8) : Instr :=
  if v = 0x20 then .trapGetc
  else if v = 0x21 then .trapOut
  else if v = 0x22 then .trapPuts
  else if v = 0x23 then .trapIn
  else if v = 0x24 then .trapPutsp
  else if v = 0x25 then .trapHalt
  else .trapInvalid v

/-- The instruction a word holds, reading only the fields its format names (R75, R77; 40_dispatch.md R92). Opcode 0 is
always the sentinel, never BR (R91). -/
def decodeWord (w : Word) : Instr :=
  match opcodeOf w with
  | .sentinel => .sentinel
  | .add => if fieldMode w then .addImm (fieldDR w) (fieldSR1 w) (fieldImm5 w)
            else .addReg (fieldDR w) (fieldSR1 w) (fieldSR2 w)
  | .ld => .ld (fieldDR w) (fieldPCoffset9 w)
  | .st => .st (fieldDR w) (fieldPCoffset9 w)
  | .jsr => if fieldL w then .jsr (fieldPCoffset11 w) else .jsrr (fieldSR1 w)
  | .and => if fieldMode w then .andImm (fieldDR w) (fieldSR1 w) (fieldImm5 w)
            else .andReg (fieldDR w) (fieldSR1 w) (fieldSR2 w)
  | .ldr => .ldr (fieldDR w) (fieldSR1 w) (fieldOffset6 w)
  | .str => .str (fieldDR w) (fieldSR1 w) (fieldOffset6 w)
  | .rti => .rti
  | .not => .not (fieldDR w) (fieldSR1 w)
  | .ldi => .ldi (fieldDR w) (fieldPCoffset9 w)
  | .sti => .sti (fieldDR w) (fieldPCoffset9 w)
  | .jmp => .jmp (fieldSR1 w)
  | .res => .res
  | .lea => .lea (fieldDR w) (fieldPCoffset9 w)
  | .trap => decodeTrap (fieldTrapvect8 w)

/-- Why a word is refused. -/
inductive DecodeError where
  /-- STRICT_UNUSED_BITS is true and the word's unread bits are not canonical (R75). -/
  | nonCanonicalUnusedBits (w : Word)
  deriving DecidableEq, Repr

/-- Whether the bits of a word that no field reads (R75) have the canonical value of its format (R65, R67, R69, R71).
Format NONE (R72) has no canonical value, so none of its words is non-canonical: DEDUCED, log entry 5. -/
def canonicalUnusedBits (w : Word) : Bool :=
  match opcodeOf w with
  | .add | .and => fieldMode w || field w 3 2 == 0b00
  | .jsr => fieldL w || (field w 9 2 == 0b00 && field w 0 6 == 0b000000)
  | .not => field w 0 6 == 0b111111
  | .jmp => field w 9 3 == 0b000 && field w 0 6 == 0b000000
  | .trap => field w 8 4 == 0b0000
  | .sentinel | .rti | .res => true
  | .ld | .st | .ldr | .str | .ldi | .sti | .lea => true

/-- The decoder with STRICT_UNUSED_BITS as its argument (00_scope.md R6, R75). -/
def decode (strict : Bool) (w : Word) : Except DecodeError Instr :=
  if strict && !canonicalUnusedBits w then .error (.nonCanonicalUnusedBits w) else .ok (decodeWord w)

/-! ## Encoding (30_encoding.md R65 to R72), unread bits canonical -/

/-- Format ALU-R (R65), unread bits 0. -/
def wordAluR (op : Opcode) (dr sr1 sr2 : Reg) : Word :=
  op.bits ++ Reg.bits dr ++ Reg.bits sr1 ++ 0b000#3 ++ Reg.bits sr2
/-- Format ALU-I (R66). -/
def wordAluI (op : Opcode) (dr sr1 : Reg) (imm : BitVec 5) : Word :=
  op.bits ++ Reg.bits dr ++ Reg.bits sr1 ++ 0b1#1 ++ imm
/-- Format NOT (R67), unread bits 1. -/
def wordNot (dr sr1 : Reg) : Word := Opcode.not.bits ++ Reg.bits dr ++ Reg.bits sr1 ++ 0b111111#6
/-- Format PC9 (R68): a 3-bit field, a register or BR's conditions, and an offset. -/
def wordPc9 (op : Opcode) (f : BitVec 3) (off : BitVec 9) : Word := op.bits ++ f ++ off
/-- Format PC11, of JSR (R69). -/
def wordPc11 (off : BitVec 11) : Word := Opcode.jsr.bits ++ 0b1#1 ++ off
/-- Format BASE, of JMP and JSRR (R69), unread bits 0; bit 11, JSRR's L, is 0 too. -/
def wordBase (op : Opcode) (base : Reg) : Word := op.bits ++ 0b000#3 ++ Reg.bits base ++ 0b000000#6
/-- Format BASE6 (R69). -/
def wordBase6 (op : Opcode) (r base : Reg) (off : BitVec 6) : Word := op.bits ++ Reg.bits r ++ Reg.bits base ++ off
/-- Format TRAP (R71), unread bits 0. -/
def wordTrap (v : BitVec 8) : Word := Opcode.trap.bits ++ 0x0#4 ++ v
/-- Format NONE (R72), with its unread bits 0. -/
def wordNone (op : Opcode) : Word := op.bits ++ 0#12

/-- The canonical word of an instruction. BR has an encoding too (43_control.md R130), which the loop never decodes to it. -/
def encode : Instr → Word
  | .sentinel => wordNone .sentinel
  | .br conds off => wordPc9 .sentinel conds off
  | .addReg dr sr1 sr2 => wordAluR .add dr sr1 sr2
  | .addImm dr sr1 imm => wordAluI .add dr sr1 imm
  | .ld dr off => wordPc9 .ld (Reg.bits dr) off
  | .st sr off => wordPc9 .st (Reg.bits sr) off
  | .jsrr b => wordBase .jsr b
  | .jsr off => wordPc11 off
  | .andReg dr sr1 sr2 => wordAluR .and dr sr1 sr2
  | .andImm dr sr1 imm => wordAluI .and dr sr1 imm
  | .ldr dr b off => wordBase6 .ldr dr b off
  | .str sr b off => wordBase6 .str sr b off
  | .rti => wordNone .rti
  | .not dr sr1 => wordNot dr sr1
  | .ldi dr off => wordPc9 .ldi (Reg.bits dr) off
  | .sti sr off => wordPc9 .sti (Reg.bits sr) off
  | .jmp b => wordBase .jmp b
  | .res => wordNone .res
  | .lea dr off => wordPc9 .lea (Reg.bits dr) off
  | .trapGetc => wordTrap 0x20
  | .trapOut => wordTrap 0x21
  | .trapPuts => wordTrap 0x22
  | .trapIn => wordTrap 0x23
  | .trapPutsp => wordTrap 0x24
  | .trapHalt => wordTrap 0x25
  | .trapInvalid v => wordTrap v

/-! ## The opcode table (spec/opcode_table.json) -/

/-- One row of the table: a word is of the row when its bits under `mask` are `pattern`. -/
structure OpcodeRow where
  mnemonic : String
  format : String
  pattern : Word
  mask : Word
  dispatched : Bool
  deriving DecidableEq, Repr

/-- The rows for opcodes 0 to 7, transcribed in the table's order. -/
def opcodeRowsLow : List OpcodeRow := [
  ⟨"SENTINEL", "NONE", 0x0000, 0xF000, true⟩,
  ⟨"BR", "PC9", 0x0000, 0xF000, false⟩,
  ⟨"ADD", "ALU-R", 0x1000, 0xF020, true⟩,
  ⟨"ADD", "ALU-I", 0x1020, 0xF020, true⟩,
  ⟨"LD", "PC9", 0x2000, 0xF000, true⟩,
  ⟨"ST", "PC9", 0x3000, 0xF000, true⟩,
  ⟨"JSRR", "BASE", 0x4000, 0xF800, true⟩,
  ⟨"JSR", "PC11", 0x4800, 0xF800, true⟩,
  ⟨"AND", "ALU-R", 0x5000, 0xF020, true⟩,
  ⟨"AND", "ALU-I", 0x5020, 0xF020, true⟩,
  ⟨"LDR", "BASE6", 0x6000, 0xF000, true⟩,
  ⟨"STR", "BASE6", 0x7000, 0xF000, true⟩]

/-- The rows for opcodes 8 to 15. -/
def opcodeRowsHigh : List OpcodeRow := [
  ⟨"RTI", "NONE", 0x8000, 0xF000, true⟩,
  ⟨"NOT", "NOT", 0x9000, 0xF000, true⟩,
  ⟨"LDI", "PC9", 0xA000, 0xF000, true⟩,
  ⟨"STI", "PC9", 0xB000, 0xF000, true⟩,
  ⟨"JMP", "BASE", 0xC000, 0xF000, true⟩,
  ⟨"RES", "NONE", 0xD000, 0xF000, true⟩,
  ⟨"LEA", "PC9", 0xE000, 0xF000, true⟩,
  ⟨"TRAP_GETC", "TRAP", 0xF020, 0xF0FF, true⟩,
  ⟨"TRAP_OUT", "TRAP", 0xF021, 0xF0FF, true⟩,
  ⟨"TRAP_PUTS", "TRAP", 0xF022, 0xF0FF, true⟩,
  ⟨"TRAP_IN", "TRAP", 0xF023, 0xF0FF, true⟩,
  ⟨"TRAP_PUTSP", "TRAP", 0xF024, 0xF0FF, true⟩,
  ⟨"TRAP_HALT", "TRAP", 0xF025, 0xF0FF, true⟩,
  ⟨"TRAP__invalid_vector", "TRAP", 0xF000, 0xF000, true⟩]

/-- All 26 rows. The first row that matches a word is the word's row (the notes of the SENTINEL and invalid-vector rows). -/
def opcodeRows : List OpcodeRow := opcodeRowsLow ++ opcodeRowsHigh

/-- Whether a word is of a row. -/
def OpcodeRow.matches (r : OpcodeRow) (w : Word) : Bool := w &&& r.mask == r.pattern

/-- The mnemonic and format of an instruction's row. -/
def Instr.row : Instr → String × String
  | .sentinel => ("SENTINEL", "NONE")
  | .br _ _ => ("BR", "PC9")
  | .addReg _ _ _ => ("ADD", "ALU-R")
  | .addImm _ _ _ => ("ADD", "ALU-I")
  | .ld _ _ => ("LD", "PC9")
  | .st _ _ => ("ST", "PC9")
  | .jsrr _ => ("JSRR", "BASE")
  | .jsr _ => ("JSR", "PC11")
  | .andReg _ _ _ => ("AND", "ALU-R")
  | .andImm _ _ _ => ("AND", "ALU-I")
  | .ldr _ _ _ => ("LDR", "BASE6")
  | .str _ _ _ => ("STR", "BASE6")
  | .rti => ("RTI", "NONE")
  | .not _ _ => ("NOT", "NOT")
  | .ldi _ _ => ("LDI", "PC9")
  | .sti _ _ => ("STI", "PC9")
  | .jmp _ => ("JMP", "BASE")
  | .res => ("RES", "NONE")
  | .lea _ _ => ("LEA", "PC9")
  | .trapGetc => ("TRAP_GETC", "TRAP")
  | .trapOut => ("TRAP_OUT", "TRAP")
  | .trapPuts => ("TRAP_PUTS", "TRAP")
  | .trapIn => ("TRAP_IN", "TRAP")
  | .trapPutsp => ("TRAP_PUTSP", "TRAP")
  | .trapHalt => ("TRAP_HALT", "TRAP")
  | .trapInvalid _ => ("TRAP__invalid_vector", "TRAP")

/-! ## The host's view of a table word -/

/-- The instruction word the table's number `w` of `nbits` bits stands for: bits above `nbits` are 0. One word is the
longest instruction (30_encoding.md R60). -/
def tableWord (nbits w : Nat) : Word := BitVec.ofNat 16 (w % 2 ^ nbits)

/-- What the decoder reads from an instruction of the opcode table's numbering. -/
def decodeTableWord (nbits w : Nat) : Option Instr :=
  (decode Config.strictUnusedBits (tableWord nbits w)).toOption

end Sys2Proof
end

