-- ==== Sys2Proof/Machine/State.lean ====
section
/-! DEFINITION. The architectural state of the core (10_state.md), its reset, and the reasons a step can stop. -/

namespace Sys2Proof.Machine

/-- One listed word of memory: its word address and its value. The addressable unit is the 16-bit word and memory has no
bytes (00_scope.md R5, 20_memory.md R40, R43), so a cell is a word: log entry 20. -/
abbrev WordCell := Nat × Word

/-- Memory: the listed words, addresses strictly rising, none equal to what an unlisted address reads as
(`Memory.wf`, Machine/Ops.lean). -/
structure Memory where
  cells : List WordCell
  deriving DecidableEq, Repr

/-- Why the loop halted (10_state.md R32). -/
inductive HaltReason where
  /-- The HALT trap (44_trap.md R155). -/
  | trapHalt
  /-- The opcode-0 sentinel (40_dispatch.md R91). -/
  | sentinel
  deriving DecidableEq, Repr

/-- The causes of a fault during a run, with their information (60_exceptions.md R160 to R162). -/
inductive Cause where
  /-- TRAP with a vector outside 0x20 to 0x25 (R161). -/
  | invalidTrapVector (v : BitVec 8)
  deriving DecidableEq, Repr

/-- The run state (10_state.md R32). HALTED and FAULTED are terminal (60_exceptions.md R164). -/
inductive RunState where
  | running
  | halted (reason : HaltReason)
  | faulted (cause : Cause)
  deriving DecidableEq, Repr

/-- The input stream (10_state.md R33 and the record at the head of that file): the bytes the host has supplied and the
core has not read, oldest first, and whether end-of-data has been signalled after them. Log entry 10. -/
structure InStream where
  pending : List Byte
  ended : Bool
  deriving DecidableEq, Repr

/-- The whole state of the core (10_state.md). `ir` is not kept between cycles (R35). -/
structure State where
  /-- R0 to R7 (R20, R21). -/
  regs : Vector Word 8
  /-- The program counter (R24): the address of the next instruction to fetch between cycles, that of the current one
  plus 1 within a cycle. -/
  pc : Word
  /-- The condition register (R26): a 16-bit slot. -/
  cond : Word
  /-- Memory (20_memory.md R40). -/
  mem : Memory
  /-- The run state (R32). -/
  run : RunState
  /-- The input stream, host state (R33). -/
  input : InStream
  /-- The bytes emitted so far, in emission order (R34). -/
  output : List Byte
  deriving DecidableEq, Repr

/-- The state when the first dispatch cycle begins (10_state.md R36, 70_reset_and_hazards.md R180) with no image loaded.
R0 to R7 are zero and COND is ZERO by the spec's decisions D5 and D6 (DESIGN CHOICE, log entries 6 and 7). The input
stream is the host's (R182); here the host has supplied nothing and signalled nothing (DESIGN CHOICE, log entry 9). -/
def State.reset : State where
  regs := Vector.replicate 8 0x0000
  pc := Config.startPc
  cond := Config.condZero
  mem := ⟨[]⟩
  run := .running
  input := ⟨[], false⟩
  output := []

/-- Why a cycle does not complete. Both are the spec's own "stuck" (93_implementation_defined.md U6, U7): the machine has
no next state, so stopping is safe. -/
inductive Fault where
  /-- Raised by GETC and IN when the host has supplied neither a byte nor end-of-data: the core is blocked
  (10_state.md R33). `emitted` is what the cycle emitted before it blocked (IN's prompt, 44_trap.md R153). Safe. -/
  | blockedOnInput (emitted : List Byte)
  /-- Raised by PUTS and PUTSP when no word of memory ends the string: the scan never ends (44_trap.md R152, R154).
  Safe. -/
  | unterminatedString
  deriving DecidableEq, Repr

/-- Why a word is not run. -/
inductive Refusal where
  /-- An instruction that has no meaning in the model yet. Raised by no arm of exec. Safe. -/
  | notModelled (mnemonic : String)
  /-- Raised by a step with STRICT_UNUSED_BITS = true on a word whose unread bits are not canonical (30_encoding.md R75);
  never with the default false. Safe: the spec says it "errs toward unprovable". -/
  | nonCanonicalUnusedBits (w : Word)
  deriving DecidableEq, Repr

end Sys2Proof.Machine
end

