-- ==== Sys2Proof/Machine/Ops.lean ====
section
/-! DEFINITION. The shared operations over memory, registers, the console and the run state (00_scope.md R10, R11). -/

namespace Sys2Proof.Machine

/-! ## Memory (20_memory.md R42) -/

/-- What a word that nothing has written reads as: memory is "zero-initialized at creation" (R42). -/
def Memory.unlisted : Word := 0x0000

/-- The canonical form: addresses strictly rising and within the 65536 words, no listed word equal to an unlisted one. -/
abbrev Memory.wf (m : Memory) : Prop :=
  m.cells.Pairwise (fun c d => c.1 < d.1) ∧
    ∀ c ∈ m.cells, c.1 < Config.memoryWords ∧ c.2 ≠ Memory.unlisted

/-- The word listed at an address, or what an unlisted address reads as. -/
def Memory.lookup : List WordCell → Nat → Word
  | [], _ => Memory.unlisted
  | (k, v) :: rest, a => if k = a then v else Memory.lookup rest a

/-- `MemRead(a, 1)` (00_scope.md R10). Every 16-bit value is an address; no read faults or has a side effect (R41, R47). -/
def Memory.read (m : Memory) (a : Word) : Word := Memory.lookup m.cells a.toNat

/-- The cells without the one at an address. -/
def Memory.erase (cells : List WordCell) (a : Nat) : List WordCell :=
  cells.filter fun c => c.1 != a

/-- A cell put before the first one of a higher address. -/
def Memory.insert : List WordCell → Nat → Word → List WordCell
  | [], a, v => [(a, v)]
  | c :: rest, a, v => if a < c.1 then (a, v) :: c :: rest else c :: Memory.insert rest a v

/-- `MemWrite(a, 1, v)` (00_scope.md R10): replaces the whole word and changes no other (R42). Writing the value an
unlisted address reads as removes the cell. -/
def Memory.write (m : Memory) (a : Word) (v : Word) : Memory :=
  let others := Memory.erase m.cells a.toNat
  ⟨if v = Memory.unlisted then others else Memory.insert others a.toNat v⟩

/-- `MemRead` and `MemWrite` of the machine's memory. -/
def State.readMem (s : State) (a : Word) : Word := s.mem.read a
def State.writeMem (s : State) (a v : Word) : State := { s with mem := s.mem.write a v }

/-! ## Registers (10_state.md R20 to R25) -/

/-- `R[i]`: no register is hard-wired (R21). -/
def State.reg (s : State) (r : Reg) : Word := s.regs.get r
/-- `R[i] <- v`. -/
def State.setReg (s : State) (r : Reg) (v : Word) : State := { s with regs := s.regs.set r v }
/-- `PC <- v`. -/
def State.setPc (s : State) (v : Word) : State := { s with pc := v }

/-! ## Fetch (40_dispatch.md R90, step 1) -/

/-- The word at PC, latched for the cycle (10_state.md R35). -/
def State.fetch (s : State) : Word := s.readMem s.pc
/-- The increment of PC, wrapping at 16 bits, before the instruction executes (10_state.md R24). -/
def State.advancePc (s : State) : State := s.setPc (s.pc + 1)

/-! ## The console (00_scope.md R11) -/

/-- `Emit(b)`. -/
def State.emit (s : State) (b : Byte) : State := { s with output := s.output ++ [b] }
/-- `EmitString(s)`. -/
def State.emitString (s : State) (bs : List Byte) : State := { s with output := s.output ++ bs }

/-- `ReadByte()`: a byte, or `none` for EOF, with the stream that is left; no answer at all while the host has supplied
neither (10_state.md R33). End-of-data stays signalled. -/
def InStream.readByte (i : InStream) : Option (Option Byte × InStream) :=
  match i.pending with
  | b :: rest => some (some b, { i with pending := rest })
  | [] => if i.ended then some (none, i) else none

/-- `inByte()` (44_trap.md R141): EOF is mapped to the byte 0xFF. No answer while the core is blocked. -/
def State.inByte (s : State) : Option (Byte × State) :=
  match s.input.readByte with
  | some (some b, rest) => some (b, { s with input := rest })
  | some (none, rest) => some (Config.inputEndByte, { s with input := rest })
  | none => none

/-! ## The run state: halting, and the one fault -/

/-- `Halt(reason)` (00_scope.md R11). -/
def State.halt (s : State) (reason : HaltReason) : State := { s with run := .halted reason }

/-- `raise <Cause>(info)` (00_scope.md R11), taking an exception on this machine: the cause is recorded in `run`; nothing
is saved and control goes nowhere (60_exceptions.md R161, R167). PC keeps the value the fetch left. There is no return
from it: HALTED and FAULTED are terminal (R164) and RTI restores nothing (R168). -/
def State.raiseFault (s : State) (cause : Cause) : State := { s with run := .faulted cause }

end Sys2Proof.Machine
end

