-- ==== Sys2Proof/Machine/Operands.lean ====
section
/-! DEFINITION. Every operand form: extension, bytes of a word, and the effective addresses of 42_load_store.md R110. -/

namespace Sys2Proof.Machine

/-- `sext_N(v)` (00_scope.md R9), used with N = 5, 6, 9 and 11. -/
def sext {n : Nat} (v : BitVec n) : Word := v.signExtend 16
/-- `zext_8(b)` (R9). -/
def zext8 (b : Byte) : Word := b.setWidth 16
/-- `w[7:0]`: the character of a word in the traps (20_memory.md R43). -/
def lowByte (w : Word) : Byte := w.extractLsb' 0 8
/-- `w[15:8]`: the second character of a packed word (R43). -/
def highByte (w : Word) : Byte := w.extractLsb' 8 8

/-- PC-relative: `PC + sext_9(PCoffset9)`, modulo 2^16. PC is the incremented PC. -/
def pcRel9 (s : State) (off : BitVec 9) : Word := s.pc + sext off
/-- PC-relative for JSR: `PC + sext_11(PCoffset11)` (43_control.md R134). -/
def pcRel11 (s : State) (off : BitVec 11) : Word := s.pc + sext off
/-- Indirect: the word at the PC-relative address is the address (42_load_store.md R110). -/
def indirect9 (s : State) (off : BitVec 9) : Word := s.readMem (pcRel9 s off)
/-- Base+offset: `R[BaseR] + sext_6(offset6)`, modulo 2^16. -/
def baseOff6 (s : State) (base : Reg) (off : BitVec 6) : Word := s.reg base + sext off

end Sys2Proof.Machine
end

