-- ==== Sys2Proof/Machine/Flags.lean ====
section
/-! DEFINITION. The one flag computation of the machine, SetCC (10_state.md R27), and writing a result with it. -/

namespace Sys2Proof.Machine

/-- The value SetCC(v) gives COND (R27): exactly one flag, never combined with the old COND. -/
def condOf (v : Word) : Word :=
  if v = 0x0000 then Config.condZero
  else if v.getLsbD 15 then Config.condNegative
  else Config.condPositive

/-- `SetCC(v)`. -/
def State.setCC (s : State) (v : Word) : State := { s with cond := condOf v }

/-- `R[DR] <- v; SetCC(v)`: how every flag-setting instruction ends (R27, R28; 41_alu.md R105). -/
def State.writeResult (s : State) (dr : Reg) (v : Word) : State := (s.setReg dr v).setCC v

end Sys2Proof.Machine
end

