-- ==== Sys2Proof/Machine/Control.lean ====
section
/-! DEFINITION. Control transfer (43_control.md). No rule here writes COND or accesses memory; there is no delay slot
(R137). -/

namespace Sys2Proof.Machine

/-- BR on its fields (R130): taken when `conds & COND` is not 0, COND being read as the 16-bit slot it is (10_state.md R30). -/
def State.branch (s : State) (conds : BitVec 3) (off : BitVec 9) : State :=
  if conds.setWidth 16 &&& s.cond ≠ 0 then s.setPc (pcRel9 s off) else s

/-- BR as a function of the state and an instruction word, for unit-level use (R130, R131). The step never calls it. -/
def brUnit (s : State) (ir : Word) : State := s.branch (fieldConds ir) (fieldPCoffset9 ir)

/-- BR (R130): the unit operation. No fetched word decodes to it (R131). -/
def execBr (conds : BitVec 3) (off : BitVec 9) (s : State) : Host.Outcome State Fault Refusal :=
  .next (s.branch conds off)

/-- JMP (R132); with BaseR = 7 it is RET (R133). -/
def execJmp (base : Reg) (s : State) : Host.Outcome State Fault Refusal :=
  .next (s.setPc (s.reg base))

/-- `R[7] <- PC` (R136): the incremented PC, captured before the target is computed. -/
def State.link (s : State) : State := s.setReg 7 s.pc

/-- JSR (R134). -/
def execJsr (off : BitVec 11) (s : State) : Host.Outcome State Fault Refusal :=
  .next (s.link.setPc (pcRel11 s.link off))

/-- JSRR (R135): the base is read after R7 is written, so JSRR R7 goes to the next instruction. -/
def execJsrr (base : Reg) (s : State) : Host.Outcome State Fault Refusal :=
  .next (s.link.setPc (s.link.reg base))

end Sys2Proof.Machine
end

