-- ==== Sys2Proof/Machine/LoadStore.lean ====
section
/-! DEFINITION. Loads, stores and LEA (42_load_store.md). Loads and LEA set COND; stores write no register and leave COND
unchanged. No access faults (20_memory.md R49). -/

namespace Sys2Proof.Machine

/-- LD (R111). -/
def execLd (dr : Reg) (off : BitVec 9) (s : State) : Host.Outcome State Fault Refusal :=
  .next (s.writeResult dr (s.readMem (pcRel9 s off)))

/-- ST (R112). -/
def execSt (sr : Reg) (off : BitVec 9) (s : State) : Host.Outcome State Fault Refusal :=
  .next (s.writeMem (pcRel9 s off) (s.reg sr))

/-- LDI (R113): the pointer is read first, then the operand. -/
def execLdi (dr : Reg) (off : BitVec 9) (s : State) : Host.Outcome State Fault Refusal :=
  .next (s.writeResult dr (s.readMem (indirect9 s off)))

/-- STI (R114). -/
def execSti (sr : Reg) (off : BitVec 9) (s : State) : Host.Outcome State Fault Refusal :=
  .next (s.writeMem (indirect9 s off) (s.reg sr))

/-- LDR (R115): the base is read before the load overwrites it. -/
def execLdr (dr base : Reg) (off : BitVec 6) (s : State) : Host.Outcome State Fault Refusal :=
  .next (s.writeResult dr (s.readMem (baseOff6 s base off)))

/-- STR (R116). -/
def execStr (sr base : Reg) (off : BitVec 6) (s : State) : Host.Outcome State Fault Refusal :=
  .next (s.writeMem (baseOff6 s base off) (s.reg sr))

/-- LEA (R117): reads no memory, and does set COND. -/
def execLea (dr : Reg) (off : BitVec 9) (s : State) : Host.Outcome State Fault Refusal :=
  .next (s.writeResult dr (pcRel9 s off))

end Sys2Proof.Machine
end

