-- ==== Sys2Proof/Machine/System.lean ====
section
/-! DEFINITION. The opcode-0 sentinel and the two reserved no-ops (40_dispatch.md R91, R93, R94). -/

namespace Sys2Proof.Machine

/-- The sentinel (R91): HALTED(Sentinel); PC keeps the incremented value and nothing is emitted (decision D14). -/
def execSentinel (s : State) : Host.Outcome State Fault Refusal :=
  .next (s.halt .sentinel)

/-- RTI (R93): a no-op; it returns from nothing and checks no privilege. -/
def execRti (s : State) : Host.Outcome State Fault Refusal := .next s

/-- RES (R94): a no-op; it is no illegal-opcode trap. -/
def execRes (s : State) : Host.Outcome State Fault Refusal := .next s

end Sys2Proof.Machine
end

