-- ==== Sys2Proof/Machine/Trap.lean ====
section
/-! DEFINITION. The six trap routines and the invalid vector (44_trap.md). A routine runs whole within its cycle, writes
no register but R0 in GETC and IN, and writes neither R7, COND nor memory (R142, decisions D7 and D12). -/

namespace Sys2Proof.Machine

/-- GETC (R150). With neither a byte nor end-of-data supplied the core is blocked (10_state.md R33). -/
def execTrapGetc (s : State) : Host.Outcome State Fault Refusal :=
  match s.inByte with
  | some (b, s') => .next (s'.setReg 0 (zext8 b))
  | none => .fault (.blockedOnInput [])

/-- OUT (R151). -/
def execTrapOut (s : State) : Host.Outcome State Fault Refusal :=
  .next (s.emit (lowByte (s.reg 0)))

/-- The bytes PUTS emits from address `a`, looking at no more than `fuel` words; none if no zero word is among them
(R152). -/
def putsBytes (m : Memory) : (fuel : Nat) → (a : Word) → Option (List Byte)
  | 0, _ => none
  | fuel + 1, a =>
    let w := m.read a
    if w = 0x0000 then some []
    else match putsBytes m fuel (a + 1) with
      | some bs => some (lowByte w :: bs)
      | none => none

/-- PUTS (R152). The scan wraps; after 65536 words without a zero word it is back where it began in an unchanged memory,
so it never ends (decision D11). -/
def execTrapPuts (s : State) : Host.Outcome State Fault Refusal :=
  match putsBytes s.mem Config.memoryWords (s.reg 0) with
  | some bs => .next (s.emitString bs)
  | none => .fault .unterminatedString

/-- IN (R153): the prompt, the read, the echo, the result. At end of input the echo is 0xFF (decision D10). A blocked core
has already emitted the prompt. -/
def execTrapIn (s : State) : Host.Outcome State Fault Refusal :=
  match (s.emitString Config.inPrompt).inByte with
  | some (b, s') => .next ((s'.emit b).setReg 0 (zext8 b))
  | none => .fault (.blockedOnInput Config.inPrompt)

/-- The bytes PUTSP emits from address `a`: low byte first, then high byte, up to a null byte in either place (R154). -/
def putspBytes (m : Memory) : (fuel : Nat) → (a : Word) → Option (List Byte)
  | 0, _ => none
  | fuel + 1, a =>
    let w := m.read a
    if lowByte w = 0x00 then some []
    else if highByte w = 0x00 then some [lowByte w]
    else match putspBytes m fuel (a + 1) with
      | some bs => some (lowByte w :: highByte w :: bs)
      | none => none

/-- PUTSP (R154; 90_conflicts.md C2). -/
def execTrapPutsp (s : State) : Host.Outcome State Fault Refusal :=
  match putspBytes s.mem Config.memoryWords (s.reg 0) with
  | some bs => .next (s.emitString bs)
  | none => .fault .unterminatedString

/-- HALT (R155): the notice, then HALTED(TrapHalt). -/
def execTrapHalt (s : State) : Host.Outcome State Fault Refusal :=
  .next ((s.emitString Config.haltNotice).halt .trapHalt)

/-- TRAP with an invalid vector (R156): raises InvalidTrapVector(v). The spec gives the state this leaves, so it is a next
state. -/
def execTrapInvalid (v : BitVec 8) (s : State) : Host.Outcome State Fault Refusal :=
  .next (s.raiseFault (.invalidTrapVector v))

end Sys2Proof.Machine
end

