-- ==== Sys2Proof/Machine/Step.lean ====
section
/-! DEFINITION. The fetch-decode-execute loop (40_dispatch.md R90). -/

namespace Sys2Proof.Machine

/-- One dispatch cycle of a running core (R90): fetch, increment, decode, execute, with STRICT_UNUSED_BITS as an argument. -/
def cycle (strict : Bool) (s : State) : Host.Outcome State Fault Refusal :=
  match decode strict s.fetch with
  | .ok i => exec i s.advancePc
  | .error (.nonCanonicalUnusedBits w) => .refused (.nonCanonicalUnusedBits w)

/-- One step: a cycle while RUNNING. HALTED and FAULTED are terminal: no word is fetched and the state does not change
(60_exceptions.md R164, decision D22; log entry 18). -/
def stepWith (strict : Bool) (s : State) : Host.Outcome State Fault Refusal :=
  match s.run with
  | .running => cycle strict s
  | .halted _ => .next s
  | .faulted _ => .next s

/-- One step of this hardware. -/
def step (s : State) : Host.Outcome State Fault Refusal := stepWith Config.strictUnusedBits s

/-- `s` with an instruction word of the opcode table stored where the next cycle fetches, and running. It stands for a
load by the host (log entry 24). -/
def State.withFetchWord (s : State) (nbits w : Nat) : State :=
  { s with mem := s.mem.write s.pc (tableWord nbits w), run := .running }

end Sys2Proof.Machine
end

