-- ==== Sys2Proof/Machine/Access.lean ====
section
/-! DEFINITION. The memory accesses of a dispatch cycle, in order (20_memory.md R45). The meanings perform them; this file
lists them, so that statements can be made about what a cycle reads and writes. -/

namespace Sys2Proof.Machine

/-- One access of one whole word. -/
inductive Access where
  | fetch (a : Word)
  | read (a : Word)
  | write (a : Word)
  deriving DecidableEq, Repr

/-- Reads of `n` successive words from `a`, wrapping (R55). -/
def scanReads (a : Word) : (n : Nat) → List Access
  | 0 => []
  | n + 1 => .read a :: scanReads (a + 1) n

/-- The accesses of an instruction that completes, after its fetch, in the state after the increment of PC. -/
def instrAccesses (i : Instr) (s : State) : List Access :=
  match i with
  | .ld _ off => [.read (pcRel9 s off)]
  | .ldr _ base off => [.read (baseOff6 s base off)]
  | .ldi _ off => [.read (pcRel9 s off), .read (indirect9 s off)]
  | .st _ off => [.write (pcRel9 s off)]
  | .str _ base off => [.write (baseOff6 s base off)]
  | .sti _ off => [.read (pcRel9 s off), .write (indirect9 s off)]
  | .trapPuts =>
    match putsBytes s.mem Config.memoryWords (s.reg 0) with
    | some bs => scanReads (s.reg 0) (bs.length + 1)
    | none => []
  | .trapPutsp =>
    match putspBytes s.mem Config.memoryWords (s.reg 0) with
    | some bs => scanReads (s.reg 0) (bs.length / 2 + 1)
    | none => []
  | .sentinel | .br _ _ | .addReg _ _ _ | .addImm _ _ _ | .jsrr _ | .jsr _ | .andReg _ _ _ | .andImm _ _ _
  | .rti | .not _ _ | .jmp _ | .res | .lea _ _ | .trapGetc | .trapOut | .trapIn | .trapHalt | .trapInvalid _ => []

/-- The accesses of the cycle a running core begins in `s`. A stopped core makes none (60_exceptions.md R164). -/
def cycleAccesses (s : State) : List Access :=
  match s.run with
  | .running => .fetch s.pc :: instrAccesses (decodeWord s.fetch) s.advancePc
  | .halted _ => []
  | .faulted _ => []

/-- The address of an access that reads memory, the fetch included. -/
def Access.readAddr : Access → Option Word
  | .fetch a => some a
  | .read a => some a
  | .write _ => none

/-- The address of a write. -/
def Access.writeAddr : Access → Option Word
  | .fetch _ => none
  | .read _ => none
  | .write a => some a

end Sys2Proof.Machine
end

