-- ==== Sys2Proof/Machine/HostPort.lean ====
section
/-! DEFINITION. What the host does to a core during a run, and what it reads at the end (00_scope.md R13, R14). -/

namespace Sys2Proof.Machine

/-- The host supplies input bytes (10_state.md R33, 60_exceptions.md R170). After end-of-data there are none: the stream
"may end with an end-of-data mark" (DEDUCED, log entry 10). -/
def InStream.supply (i : InStream) (bs : List Byte) : InStream :=
  if i.ended then i else { i with pending := i.pending ++ bs }

/-- The host signals end-of-data, or a read error: both are seen as EOF (R33). -/
def InStream.signalEnd (i : InStream) : InStream := { i with ended := true }

/-- The two moves of the host on a core. It may touch nothing else (00_scope.md R14). -/
def State.supply (s : State) (bs : List Byte) : State := { s with input := s.input.supply bs }
def State.signalEnd (s : State) : State := { s with input := s.input.signalEnd }

/-- The exit indication (60_exceptions.md R166). -/
inductive ExitIndication where
  | success
  | failure
  deriving DecidableEq, Repr

/-- The host's number for an indication: EXIT_SUCCESS or EXIT_FAILURE, with no value in the spec (decision D15). -/
def ExitIndication.code : ExitIndication → Int
  | .success => Config.exitSuccess
  | .failure => Config.exitFailure

/-- The indication after a run; none while it has not ended (R166; 40_dispatch.md R96). -/
def State.exitIndication (s : State) : Option ExitIndication :=
  match s.run with
  | .running => none
  | .halted _ => some .success
  | .faulted _ => some .failure

/-- The code of a run-time cause (60_exceptions.md R162, decision D21). -/
def Cause.code : Cause → Nat
  | .invalidTrapVector _ => 1

end Sys2Proof.Machine
end

