-- ==== Sys2Proof/Machine/Loader.lean ====
section
/-! DEFINITION. The loader at its boundary (70_reset_and_hazards.md R183 to R187): the memory and start state it hands
the core, or the error that keeps a run from beginning. -/

namespace Sys2Proof.Machine

/-- The load errors (60_exceptions.md R162). -/
inductive LoadError where
  /-- The image cannot be opened or read. -/
  | unreadable
  /-- The bytes after the origin are odd in number. -/
  | oddLength
  /-- Origin plus word count exceeds the address space. -/
  | overflow
  /-- The image has fewer than 2 bytes (decision D18). -/
  | tooShort
  deriving DecidableEq, Repr

/-- The code of a load error (R162, decision D21). -/
def LoadError.code : LoadError → Nat
  | .unreadable => 2
  | .oddLength => 3
  | .overflow => 4
  | .tooShort => 5

/-- What the host gives the loader for one image: its bytes, or nothing when it cannot be opened or read (R185). -/
abbrev Image := Option (List Byte)

/-- Two image bytes as a word, big-endian (20_memory.md R43, R183). -/
def bigEndian (b0 b1 : Byte) : Word := b0 ++ b1

/-- The data words of an image's bytes after the origin (R183). -/
def imageWords : List Byte → List Word
  | b0 :: b1 :: rest => bigEndian b0 b1 :: imageWords rest
  | _ => []

/-- `M[a + i] <- w[i]`, in order (R184). -/
def copyWords (m : Memory) (a : Word) : List Word → Memory
  | [] => m
  | w :: ws => copyWords (m.write a w) (a + 1) ws

/-- One image: the checks in the order of R185, then the copy. The origin word is not stored (R184). -/
def loadImage (m : Memory) : Image → Except LoadError Memory
  | none => .error .unreadable
  | some (b0 :: b1 :: body) =>
    if body.length % 2 = 1 then .error .oddLength
    else if (bigEndian b0 b1).toNat + body.length / 2 > Config.memoryWords then .error .overflow
    else .ok (copyWords m (bigEndian b0 b1) (imageWords body))
  | some _ => .error .tooShort

/-- Images in the order given; the first failure is the result (R186; 60_exceptions.md R165). -/
def loadImages (m : Memory) : List Image → Except LoadError Memory
  | [] => .ok m
  | image :: rest =>
    match loadImage m image with
    | .ok m' => loadImages m' rest
    | .error e => .error e

/-- From creation to the first dispatch cycle (R180): memory zero, the images loaded, every other field at its reset value,
the input stream the host's (R182). If a load fails there is no state to run (R187). -/
def boot (images : List Image) (input : InStream) : Except LoadError State :=
  match loadImages State.reset.mem images with
  | .ok m => .ok { State.reset with mem := m, input := input }
  | .error e => .error e

/-- The exit indication of a boot: failure at once after a load error (60_exceptions.md R166). -/
def bootExit : Except LoadError State → Option ExitIndication
  | .ok s => s.exitIndication
  | .error _ => some .failure

end Sys2Proof.Machine
end

