-- ==== Sys2Proof/Machine/RegReset.lean ====
section
/-! DEFINITION. The parameter REG_RESET (00_scope.md R6, 10_state.md R36). `core` is the machine of its default, `zero`.
For the alternative, `unwritten`, this file runs the same cycle beside a record of which registers hold a value, and
faults on a read of one that does not. STRICT_UNUSED_BITS is an argument here as it is of `stepWith`. Log entry 6. -/

namespace Sys2Proof.Machine

/-- The two reset policies of R0 to R7 and COND (R6). -/
inductive RegResetPolicy where
  | zero
  | unwritten
  deriving DecidableEq, Repr

/-- A core and which of its registers have been written. -/
structure Tracked where
  core : State
  /-- R0 to R7: whether each holds a value. -/
  written : Vector Bool 8
  /-- Whether COND does. -/
  condWritten : Bool
  deriving DecidableEq, Repr

/-- Why a tracked step stops: the two reads before a write, or the core's own fault. -/
inductive TrackedFault where
  /-- A general register is read that holds no value (R36). Only under `unwritten`; safe. -/
  | unwrittenRegister (r : Reg)
  /-- COND is read and holds no value. Only BR reads COND (10_state.md R29), and no step runs it; safe. -/
  | unwrittenCond
  /-- The core's own fault. -/
  | coreFault (f : Fault)
  deriving DecidableEq, Repr

/-- The registers an instruction reads before it has written them (10_state.md R22), in the order of its rule's
pseudocode: STR computes its address before it reads SR (42_load_store.md R116). JSRR R7 reads the R7 it has just written
(43_control.md R135). Log entry 8. -/
def readRegs : Instr → List Reg
  | .addReg _ sr1 sr2 | .andReg _ sr1 sr2 => [sr1, sr2]
  | .addImm _ sr1 _ | .andImm _ sr1 _ | .not _ sr1 => [sr1]
  | .st sr _ | .sti sr _ => [sr]
  | .ldr _ base _ => [base]
  | .str sr base _ => [base, sr]
  | .jmp base => [base]
  | .jsrr base => if base = 7 then [] else [base]
  | .trapOut | .trapPuts | .trapPutsp => [0]
  | .sentinel | .br _ _ | .ld _ _ | .jsr _ | .rti | .ldi _ _ | .res | .lea _ _ | .trapGetc | .trapIn | .trapHalt
  | .trapInvalid _ => []

/-- The registers an instruction writes (R22). -/
def writeRegs : Instr → List Reg
  | .addReg dr _ _ | .andReg dr _ _ | .addImm dr _ _ | .andImm dr _ _ | .not dr _ => [dr]
  | .ld dr _ | .ldi dr _ | .ldr dr _ _ | .lea dr _ => [dr]
  | .jsr _ | .jsrr _ => [7]
  | .trapGetc | .trapIn => [0]
  | .sentinel | .br _ _ | .st _ _ | .str _ _ _ | .rti | .sti _ _ | .jmp _ | .res | .trapOut | .trapPuts | .trapPutsp
  | .trapHalt | .trapInvalid _ => []

/-- Whether an instruction reads COND: only BR (R29). -/
def readsCond : Instr → Bool
  | .br _ _ => true
  | _ => false

/-- Whether an instruction writes COND (R28). -/
def setsCond : Instr → Bool
  | .addReg _ _ _ | .andReg _ _ _ | .addImm _ _ _ | .andImm _ _ _ | .not _ _ => true
  | .ld _ _ | .ldi _ _ | .ldr _ _ _ | .lea _ _ => true
  | .sentinel | .br _ _ | .st _ _ | .str _ _ _ | .rti | .sti _ _ | .jmp _ | .jsr _ | .jsrr _ | .res | .trapGetc | .trapOut
  | .trapPuts | .trapIn | .trapPutsp | .trapHalt | .trapInvalid _ => false

/-- The first of some registers that holds no value. -/
def Tracked.firstUnwritten (t : Tracked) (rs : List Reg) : Option Reg :=
  rs.find? fun r => !t.written.get r

/-- The record after an instruction has completed. -/
def Tracked.record (t : Tracked) (i : Instr) (s : State) : Tracked where
  core := s
  written := (writeRegs i).foldl (fun ws (r : Reg) => ws.set r true) t.written
  condWritten := t.condWritten || setsCond i

/-- An instruction under a record: the reads are checked, then the instruction has its meaning. -/
def Tracked.exec (i : Instr) (t : Tracked) (s : State) : Host.Outcome Tracked TrackedFault Refusal :=
  match t.firstUnwritten (readRegs i) with
  | some r => .fault (.unwrittenRegister r)
  | none =>
    if readsCond i && !t.condWritten then .fault .unwrittenCond
    else match Sys2Proof.Machine.exec i s with
      | .next s' => .next (t.record i s')
      | .fault f => .fault (.coreFault f)
      | .refused r => .refused r

/-- One dispatch cycle of a running tracked machine, with STRICT_UNUSED_BITS as an argument (R6, 30_encoding.md R75): a
non-canonical word is refused before any register is read. -/
def Tracked.cycle (strict : Bool) (t : Tracked) : Host.Outcome Tracked TrackedFault Refusal :=
  match decode strict t.core.fetch with
  | .ok i => Tracked.exec i t t.core.advancePc
  | .error (.nonCanonicalUnusedBits w) => .refused (.nonCanonicalUnusedBits w)

/-- One step of the tracked machine, for every pair of the two parameters: `strict` is STRICT_UNUSED_BITS, and
`Tracked.start` takes REG_RESET. -/
def Tracked.stepWith (strict : Bool) (t : Tracked) : Host.Outcome Tracked TrackedFault Refusal :=
  match t.core.run with
  | .running => Tracked.cycle strict t
  | .halted _ => .next t
  | .faulted _ => .next t

/-- One step of the tracked machine with the default of STRICT_UNUSED_BITS. -/
def Tracked.step (t : Tracked) : Host.Outcome Tracked TrackedFault Refusal := t.stepWith Config.strictUnusedBits

/-- A core at the start of a run, under a policy: under `zero` every register holds a value from reset, under `unwritten`
none does. -/
def Tracked.start (p : RegResetPolicy) (s : State) : Tracked where
  core := s
  written := Vector.replicate 8 (p == .zero)
  condWritten := p == .zero

end Sys2Proof.Machine
end

