-- ==== Sys2Proof/Safety.lean ====
section
/-! DEFINITION. What a legal state is, when an instruction completes, which states a run reaches, and the words the
statements use for what an instruction changes and leaves unchanged. -/

namespace Sys2Proof.Machine

/-! ## Legal states -/

/-- COND holds exactly one of POSITIVE, ZERO, NEGATIVE and nothing else (10_state.md R26, R30). -/
abbrev State.condLegal (s : State) : Prop := s.cond = 0x0001 ∨ s.cond = 0x0002 ∨ s.cond = 0x0004

/-- The invariant of every run: memory canonical, COND legal. -/
abbrev State.Inv (s : State) : Prop := s.mem.wf ∧ s.condLegal

/-! ## When an instruction completes -/

/-- A read of the input stream has an answer: a byte, or end-of-data (10_state.md R33). -/
def State.inputReady (s : State) : Prop := s.input.pending ≠ [] ∨ s.input.ended = true

/-- Some word ends a PUTS scan: a whole zero word (44_trap.md R152). -/
def State.hasZeroWord (s : State) : Prop := ∃ a, s.readMem a = 0x0000

/-- Some word ends a PUTSP scan: a null byte in either position (R154). -/
def State.hasNullByte (s : State) : Prop := ∃ a, lowByte (s.readMem a) = 0x00 ∨ highByte (s.readMem a) = 0x00

/-- When the spec lets an instruction complete: always, but for the two cycles it calls stuck
(93_implementation_defined.md U6, U7). -/
def completes (i : Instr) (s : State) : Prop :=
  match i with
  | .trapGetc | .trapIn => s.inputReady
  | .trapPuts => s.hasZeroWord
  | .trapPutsp => s.hasNullByte
  | .sentinel | .br _ _ | .addReg _ _ _ | .addImm _ _ _ | .ld _ _ | .st _ _ | .jsrr _ | .jsr _ | .andReg _ _ _
  | .andImm _ _ _ | .ldr _ _ _ | .str _ _ _ | .rti | .not _ _ | .ldi _ _ | .sti _ _ | .jmp _ | .res | .lea _ _
  | .trapOut | .trapHalt | .trapInvalid _ => True

/-! ## The bits no field reads -/

/-- The bits that no field of a word's format reads, as a mask (30_encoding.md R75). -/
def unusedMask (w : Word) : Word :=
  match opcodeOf w with
  | .sentinel | .rti | .res => 0x0FFF
  | .add | .and => if fieldMode w then 0x0000 else 0x0018
  | .jsr => if fieldL w then 0x0000 else 0x063F
  | .not => 0x003F
  | .jmp => 0x0E3F
  | .trap => 0x0F00
  | .ld | .st | .ldr | .str | .ldi | .sti | .lea => 0x0000

/-! ## Runs -/

/-- `k` steps, stopping at the first fault or refusal. -/
def steps : (k : Nat) → State → Host.Outcome State Fault Refusal
  | 0, s => .next s
  | k + 1, s =>
    match step s with
    | .next t => steps k t
    | .fault f => .fault f
    | .refused r => .refused r

/-- The states of every run: from a boot of any images with any input stream, by steps, and by the two moves of the host
between them (00_scope.md R14). -/
inductive Reachable : State → Prop where
  | boot (images : List Image) (input : InStream) (s : State) : boot images input = .ok s → Reachable s
  | step (s t : State) : Reachable s → step s = .next t → Reachable t
  | supply (s : State) (bs : List Byte) : Reachable s → Reachable (s.supply bs)
  | signalEnd (s : State) : Reachable s → Reachable s.signalEnd

/-! ## What changes and what does not -/

/-- The flag value of 10_state.md R26 and R27 for a written value, by its numeric range. -/
def flagFor (v : Word) : Word :=
  if v.toNat = 0 then 0x0002 else if 0x8000 ≤ v.toNat then 0x0004 else 0x0001

/-- No general register changes. -/
def SameRegs (s t : State) : Prop := ∀ r, t.reg r = s.reg r
/-- No general register but `d` changes. -/
def SameRegsBut (d : Reg) (s t : State) : Prop := ∀ r, r ≠ d → t.reg r = s.reg r
/-- No word of memory changes. -/
def SameMemory (s t : State) : Prop := ∀ a, t.readMem a = s.readMem a
/-- Nothing is read from the input stream and nothing is emitted. -/
def SameConsole (s t : State) : Prop := t.input = s.input ∧ t.output = s.output

/-- `t` is `s` with `v` in `dr` and COND describing `v`; nothing else changed. -/
def WritesResult (dr : Reg) (v : Word) (s t : State) : Prop :=
  t.reg dr = v ∧ t.cond = flagFor v ∧
    SameRegsBut dr s t ∧ t.pc = s.pc ∧ SameMemory s t ∧ t.run = s.run ∧ SameConsole s t

/-- `t` is `s` with `v` stored at `a`; nothing else changed. -/
def StoresWord (a v : Word) (s t : State) : Prop :=
  t.readMem a = v ∧ (∀ b, b ≠ a → t.readMem b = s.readMem b) ∧
    SameRegs s t ∧ t.cond = s.cond ∧ t.pc = s.pc ∧ t.run = s.run ∧ SameConsole s t

/-- `t` is `s` with PC at `target`; nothing else changed. -/
def JumpsTo (target : Word) (s t : State) : Prop :=
  t.pc = target ∧ SameRegs s t ∧ t.cond = s.cond ∧ SameMemory s t ∧ t.run = s.run ∧ SameConsole s t

/-- `t` is `s` with the return address in R7 and PC at `target`; nothing else changed. -/
def CallsTo (target : Word) (s t : State) : Prop :=
  t.reg 7 = s.pc ∧ t.pc = target ∧
    SameRegsBut 7 s t ∧ t.cond = s.cond ∧ SameMemory s t ∧ t.run = s.run ∧ SameConsole s t

/-- `t` is `s` with `bs` emitted; nothing else changed. -/
def Emits (bs : List Byte) (s t : State) : Prop :=
  t.output = s.output ++ bs ∧
    SameRegs s t ∧ t.cond = s.cond ∧ t.pc = s.pc ∧ SameMemory s t ∧ t.run = s.run ∧ t.input = s.input

/-- `t` is `s` with `v` in R0, the input stream at `rest` and `bs` emitted; nothing else changed. -/
def Reads (v : Word) (rest : InStream) (bs : List Byte) (s t : State) : Prop :=
  t.reg 0 = v ∧ t.input = rest ∧ t.output = s.output ++ bs ∧
    SameRegsBut 0 s t ∧ t.cond = s.cond ∧ t.pc = s.pc ∧ SameMemory s t ∧ t.run = s.run

/-- `t` is `s` stopped in run state `r` with `bs` emitted; nothing else changed. -/
def StopsAs (r : RunState) (bs : List Byte) (s t : State) : Prop :=
  t.run = r ∧ t.output = s.output ++ bs ∧
    SameRegs s t ∧ t.cond = s.cond ∧ t.pc = s.pc ∧ SameMemory s t ∧ t.input = s.input

/-- The `j`-th byte of the packed string that starts at word `a`: the low byte of a word, then its high byte (R154). -/
def packedByte (s : State) (a : Word) (j : Nat) : Byte :=
  let w := s.readMem (a + BitVec.ofNat 16 (j / 2))
  if j % 2 = 0 then lowByte w else highByte w

/-- The address of the `i`-th word from `a`, wrapping (20_memory.md R41). -/
def wordAt (a : Word) (i : Nat) : Word := a + BitVec.ofNat 16 i

end Sys2Proof.Machine
end

