-- ==== Sys2Proof/Certificates/Slice0/Obligations.lean ====
section
/-! DEFINITION. The statements about the model, for the provers. `exec i s` is stated at the state after the fetch and the
increment of PC (40_dispatch.md R90), so `s.pc` there is the incremented PC; `StepRunsTheDecodedInstruction` ties it to a
step. "D<n>" is a decision of 92_eei_decisions.md, the spec's own choice. -/

open Sys2Proof Sys2Proof.Machine

/-! ## Encoding -/

/-- Decoding the word of a well-formed instruction the loop can dispatch gives the instruction back, whatever
STRICT_UNUSED_BITS is. It rests on the opcode numbers (D1) and field places (D3) the spec chose. -/
def Obligations.DecodeOfEncodeIsTheInstruction : Prop :=
  ∀ (strict : Bool) (i : Instr), i.wf = true → i.dispatched = true → decode strict (encode i) = .ok i

/-- 30_encoding.md R77: every word decodes, to a well-formed instruction that is never BR. -/
def Obligations.EveryWordDecodesToADispatchedInstruction : Prop :=
  ∀ w : Word, ∃ i, decode false w = .ok i ∧ i.wf = true ∧ i.dispatched = true

/-- 30_encoding.md R75 (D4): two words decode to the same instruction exactly when they differ only in bits that no field
of their format reads. No read bit is dropped, and no unread bit matters. -/
def Obligations.WordsDecodeAlikeExactlyWhenReadBitsAgree : Prop :=
  ∀ w w' : Word, decode false w = decode false w' ↔ (w ^^^ w') &&& ~~~(unusedMask w) = 0

/-- 30_encoding.md R75: with STRICT_UNUSED_BITS = true exactly the words are accepted that are the canonical word of their
instruction; of format NONE every word is (no canonical value exists: log entry 5). -/
def Obligations.StrictDecodingAcceptsOnlyCanonicalWords : Prop :=
  ∀ (w : Word) (i : Instr), decode true w = .ok i ↔
    decodeWord w = i ∧ (encode i = w ∨ i = .sentinel ∨ i = .rti ∨ i = .res)

/-- spec/opcode_table.json: the row of a word's instruction is the first row of the table that matches the word, for all
65536 words; BR's row is never that row. -/
def Obligations.DecodingFollowsTheOpcodeTable : Prop :=
  ∀ w : Word, ∃ r, opcodeRows.find? (fun r => r.matches w) = some r ∧ r.dispatched = true ∧
    (decodeWord w).row = (r.mnemonic, r.format)

/-- 30_encoding.md R62 to R72 and 40_dispatch.md R92: which instruction each opcode gives, and from which bits its fields
come, with the bits written as numbers. -/
def Obligations.FieldsAreReadWhereTheFormatsPutThem : Prop :=
  ∀ w : Word,
    let bits (hi lo : Nat) : Nat := w.toNat / 2 ^ lo % 2 ^ (hi + 1 - lo)
    let op := bits 15 12
    (op = 0 → decodeWord w = .sentinel) ∧
    (op = 1 → bits 5 5 = 0 → ∃ d a b, decodeWord w = .addReg d a b ∧ d.val = bits 11 9 ∧ a.val = bits 8 6 ∧ b.val = bits 2 0) ∧
    (op = 1 → bits 5 5 = 1 → ∃ d a i, decodeWord w = .addImm d a i ∧ d.val = bits 11 9 ∧ a.val = bits 8 6 ∧ i.toNat = bits 4 0) ∧
    (op = 2 → ∃ d o, decodeWord w = .ld d o ∧ d.val = bits 11 9 ∧ o.toNat = bits 8 0) ∧
    (op = 3 → ∃ r o, decodeWord w = .st r o ∧ r.val = bits 11 9 ∧ o.toNat = bits 8 0) ∧
    (op = 4 → bits 11 11 = 1 → ∃ o, decodeWord w = .jsr o ∧ o.toNat = bits 10 0) ∧
    (op = 4 → bits 11 11 = 0 → ∃ b, decodeWord w = .jsrr b ∧ b.val = bits 8 6) ∧
    (op = 5 → bits 5 5 = 0 → ∃ d a b, decodeWord w = .andReg d a b ∧ d.val = bits 11 9 ∧ a.val = bits 8 6 ∧ b.val = bits 2 0) ∧
    (op = 5 → bits 5 5 = 1 → ∃ d a i, decodeWord w = .andImm d a i ∧ d.val = bits 11 9 ∧ a.val = bits 8 6 ∧ i.toNat = bits 4 0) ∧
    (op = 6 → ∃ d b o, decodeWord w = .ldr d b o ∧ d.val = bits 11 9 ∧ b.val = bits 8 6 ∧ o.toNat = bits 5 0) ∧
    (op = 7 → ∃ r b o, decodeWord w = .str r b o ∧ r.val = bits 11 9 ∧ b.val = bits 8 6 ∧ o.toNat = bits 5 0) ∧
    (op = 8 → decodeWord w = .rti) ∧
    (op = 9 → ∃ d a, decodeWord w = .not d a ∧ d.val = bits 11 9 ∧ a.val = bits 8 6) ∧
    (op = 10 → ∃ d o, decodeWord w = .ldi d o ∧ d.val = bits 11 9 ∧ o.toNat = bits 8 0) ∧
    (op = 11 → ∃ r o, decodeWord w = .sti r o ∧ r.val = bits 11 9 ∧ o.toNat = bits 8 0) ∧
    (op = 12 → ∃ b, decodeWord w = .jmp b ∧ b.val = bits 8 6) ∧
    (op = 13 → decodeWord w = .res) ∧
    (op = 14 → ∃ d o, decodeWord w = .lea d o ∧ d.val = bits 11 9 ∧ o.toNat = bits 8 0) ∧
    (op = 15 → bits 7 0 = 0x20 → decodeWord w = .trapGetc) ∧
    (op = 15 → bits 7 0 = 0x21 → decodeWord w = .trapOut) ∧
    (op = 15 → bits 7 0 = 0x22 → decodeWord w = .trapPuts) ∧
    (op = 15 → bits 7 0 = 0x23 → decodeWord w = .trapIn) ∧
    (op = 15 → bits 7 0 = 0x24 → decodeWord w = .trapPutsp) ∧
    (op = 15 → bits 7 0 = 0x25 → decodeWord w = .trapHalt) ∧
    (op = 15 → (bits 7 0 < 0x20 ∨ 0x25 < bits 7 0) → ∃ v, decodeWord w = .trapInvalid v ∧ v.toNat = bits 7 0)

/-- Words written out from the spec's encodings, one or more per family, decode to what they stand for. -/
def Obligations.SpecWordsDecode : Prop :=
  decode false 0x1283 = .ok (.addReg 1 2 3) ∧ decode false 0x12BF = .ok (.addImm 1 2 0x1F) ∧
  decode false 0x96BF = .ok (.not 3 2) ∧ decode false 0xA401 = .ok (.ldi 2 1) ∧
  decode false 0x75A0 = .ok (.str 2 6 0x20) ∧ decode false 0x4805 = .ok (.jsr 5) ∧
  decode false 0x41C0 = .ok (.jsrr 7) ∧ decode false 0xC1C0 = .ok (.jmp 7) ∧
  decode false 0xF025 = .ok .trapHalt ∧ decode false 0xF026 = .ok (.trapInvalid 0x26) ∧
  decode false 0x0E05 = .ok .sentinel ∧ decode false 0xD123 = .ok .res

/-! ## Primitives -/

/-- 00_scope.md R9, for every field width from 1 to 16: the formula with OR when the field's top bit is 1, the field itself
otherwise; equivalently v - 2^N modulo 2^16; and zext, which is the value unchanged. -/
def Obligations.SignExtensionIsTheOrFormula : Prop :=
  (∀ (n : Nat) (v : BitVec n), 1 ≤ n → n ≤ 16 →
    ((sext v).toNat = if v.toNat / 2 ^ (n - 1) % 2 = 1 then (v.toNat ||| (0xFFFF <<< n)) % 2 ^ 16 else v.toNat) ∧
      (v.toNat / 2 ^ (n - 1) % 2 = 1 → (sext v).toNat = (v.toNat + 2 ^ 16 - 2 ^ n) % 2 ^ 16)) ∧
    ∀ b : Byte, (zext8 b).toNat = b.toNat

/-- 20_memory.md R42: after any writes, in any order, to a memory that was never written, a read returns the value of the
most recent write to the address, and 0x0000 if there was none. A loader's copy is such writes, word after word. In any
memory a write replaces the whole word at its address and changes no other. -/
def Obligations.ReadReturnsTheMostRecentWrite : Prop :=
  (∀ (writes : List (Word × Word)) (a : Word),
    (writes.foldl (fun m w => m.write w.1 w.2) State.reset.mem).read a =
      ((writes.reverse.find? fun w => w.1 == a).map Prod.snd).getD 0x0000) ∧
  (∀ (m : Memory) (a : Word) (ws : List Word),
    copyWords m a ws = (ws.zipIdx.map fun w => (wordAt a w.2, w.1)).foldl (fun m w => m.write w.1 w.2) m) ∧
  (∀ (m : Memory) (a v : Word), (m.write a v).read a = v ∧ ∀ b, b ≠ a → (m.write a v).read b = m.read b)

/-- The canonical form is one: two canonical memories that read alike at every address are the same data. The form is the
model's (log entry 20). -/
def Obligations.CanonicalMemoryIsItsWords : Prop :=
  ∀ m m' : Memory, m.wf → m'.wf → (∀ a, m.read a = m'.read a) → m = m'

/-! ## Arithmetic and logic (41_alu.md) -/

/-- R100, R101, R105: ADD completes in every state, with the sum modulo 2^16 of the old source values, COND from the result,
and nothing else changed. -/
def Obligations.AddCompletesWithTheSum : Prop :=
  (∀ dr sr1 sr2 s, ∃ t, exec (.addReg dr sr1 sr2) s = .next t ∧
    WritesResult dr (BitVec.ofNat 16 (((s.reg sr1).toNat + (s.reg sr2).toNat) % 2 ^ 16)) s t) ∧
  (∀ dr sr1 (imm : BitVec 5) s, ∃ t, exec (.addImm dr sr1 imm) s = .next t ∧
    WritesResult dr (BitVec.ofNat 16 (((s.reg sr1).toNat + (sext imm).toNat) % 2 ^ 16)) s t)

/-- R102, R103, R105: AND completes in every state with the bitwise AND, bit by bit. -/
def Obligations.AndCompletesWithTheConjunction : Prop :=
  (∀ dr sr1 sr2 s, ∃ t v, exec (.andReg dr sr1 sr2) s = .next t ∧
    (∀ k < 16, v.getLsbD k = ((s.reg sr1).getLsbD k && (s.reg sr2).getLsbD k)) ∧ WritesResult dr v s t) ∧
  (∀ dr sr1 (imm : BitVec 5) s, ∃ t v, exec (.andImm dr sr1 imm) s = .next t ∧
    (∀ k < 16, v.getLsbD k = ((s.reg sr1).getLsbD k && (sext imm).getLsbD k)) ∧ WritesResult dr v s t)

/-- R104, R105: NOT completes in every state with 0xFFFF - a. -/
def Obligations.NotCompletesWithTheComplement : Prop :=
  ∀ dr sr1 s, ∃ t, exec (.not dr sr1) s = .next t ∧
    WritesResult dr (BitVec.ofNat 16 (0xFFFF - (s.reg sr1).toNat)) s t

/-! ## Loads, LEA and stores (42_load_store.md) -/

/-- R111, R113, R115: the loads complete in every state with the word at their effective address. -/
def Obligations.LoadsCompleteWithTheWordAtTheAddress : Prop :=
  (∀ dr (off : BitVec 9) s, ∃ t, exec (.ld dr off) s = .next t ∧
    WritesResult dr (s.readMem (s.pc + sext off)) s t) ∧
  (∀ dr (off : BitVec 9) s, ∃ t, exec (.ldi dr off) s = .next t ∧
    WritesResult dr (s.readMem (s.readMem (s.pc + sext off))) s t) ∧
  (∀ dr b (off : BitVec 6) s, ∃ t, exec (.ldr dr b off) s = .next t ∧
    WritesResult dr (s.readMem (s.reg b + sext off)) s t)

/-- R117: LEA completes in every state with the address itself (a function of PC and the offset alone: memory is not read)
and sets COND. -/
def Obligations.LeaCompletesWithTheAddress : Prop :=
  ∀ dr (off : BitVec 9) s, ∃ t, exec (.lea dr off) s = .next t ∧ WritesResult dr (s.pc + sext off) s t

/-- R112, R114, R116: the stores complete in every state, store the whole source register at their effective address, and
change no other word, no register and not COND. -/
def Obligations.StoresCompleteAndChangeOneWord : Prop :=
  (∀ sr (off : BitVec 9) s, ∃ t, exec (.st sr off) s = .next t ∧
    ∀ a, a = s.pc + sext off → StoresWord a (s.reg sr) s t) ∧
  (∀ sr (off : BitVec 9) s, ∃ t, exec (.sti sr off) s = .next t ∧
    ∀ a, a = s.readMem (s.pc + sext off) → StoresWord a (s.reg sr) s t) ∧
  (∀ sr b (off : BitVec 6) s, ∃ t, exec (.str sr b off) s = .next t ∧
    ∀ a, a = s.reg b + sext off → StoresWord a (s.reg sr) s t)

/-! ## Control transfer (43_control.md) -/

/-- R130: BR, the unit operation, completes in every state; it is taken exactly when a condition bit it selects is set in
COND, and writes only PC. On an instruction word it reads conds from bits 11:9 and the offset from bits 8:0 (R64, R68), and
on the word BR encodes to it is BR with those operands. That it is a unit operation is D2 (log entry 2), and that its opcode
is 0 is D1 (log entry 1). -/
def Obligations.BranchIsTakenOnASelectedCondition : Prop :=
  (∀ (conds : BitVec 3) (off : BitVec 9) s, ∃ t, exec (.br conds off) s = .next t ∧
    JumpsTo (if ∃ k < 3, conds.getLsbD k = true ∧ s.cond.getLsbD k = true then s.pc + sext off else s.pc) s t) ∧
  (∀ (s : State) (ir : Word), exec (.br (ir.extractLsb 11 9) (ir.extractLsb 8 0)) s = .next (brUnit s ir)) ∧
  (∀ (s : State) (conds : BitVec 3) (off : BitVec 9),
    (encode (.br conds off)).toNat = conds.toNat * 2 ^ 9 + off.toNat ∧
      brUnit s (encode (.br conds off)) = s.branch conds off ∧
      exec (.br conds off) s = .next (brUnit s (encode (.br conds off))))

/-- R132, R133: JMP completes in every state at the value of its base register; with BaseR = 7 that is R7. -/
def Obligations.JmpCompletesAtTheBaseRegister : Prop :=
  ∀ b s, ∃ t, exec (.jmp b) s = .next t ∧ JumpsTo (s.reg b) s t

/-- R134, R135, R136: JSR and JSRR complete in every state with the incremented PC in R7, captured before the target is
computed, so that JSRR R7 goes to the return address itself. -/
def Obligations.CallsLinkBeforeTheTarget : Prop :=
  (∀ (off : BitVec 11) s, ∃ t, exec (.jsr off) s = .next t ∧ CallsTo (s.pc + sext off) s t) ∧
  (∀ b s, ∃ t, exec (.jsrr b) s = .next t ∧ CallsTo (if b = 7 then s.pc else s.reg b) s t)

/-! ## The sentinel and the no-ops (40_dispatch.md) -/

/-- R91: the sentinel completes in every state, halting the run; no register, flag or word changes and nothing is emitted
(the last by D14). -/
def Obligations.SentinelHaltsAndChangesNothingElse : Prop :=
  ∀ s, ∃ t, exec .sentinel s = .next t ∧ StopsAs (.halted .sentinel) [] s t

/-- R93, R94: one whole dispatch cycle of any word whose opcode is 8 or 13 only advances PC, modulo 2^16. -/
def Obligations.ReservedOpcodesOnlyAdvancePc : Prop :=
  (∀ s, exec .rti s = .next s ∧ exec .res s = .next s) ∧
  (∀ s : State, s.run = .running → (s.fetch.toNat / 2 ^ 12 = 8 ∨ s.fetch.toNat / 2 ^ 12 = 13) →
    step s = .next { s with pc := BitVec.ofNat 16 ((s.pc.toNat + 1) % 2 ^ 16) })

/-! ## The traps (44_trap.md). That no trap writes R7 is D7. -/

/-- R150: GETC takes the oldest byte into R0; at end of input it gives 0x00FF; with neither supplied the core is blocked
(10_state.md R33, D20). -/
def Obligations.GetcReadsOneByteOrTheEndOrBlocks : Prop :=
  (∀ b rest s, s.input.pending = b :: rest → ∃ t, exec .trapGetc s = .next t ∧
    Reads (BitVec.ofNat 16 b.toNat) { s.input with pending := rest } [] s t) ∧
  (∀ s : State, s.input = ⟨[], true⟩ → ∃ t, exec .trapGetc s = .next t ∧ Reads 0x00FF s.input [] s t) ∧
  (∀ s : State, s.input = ⟨[], false⟩ → exec .trapGetc s = .fault (.blockedOnInput []))

/-- R153: IN emits the prompt, then reads as GETC does, then echoes the byte; the echo at end of input is 0xFF (D10), and a
blocked core has emitted the prompt (D8). For every value of IN_PROMPT. -/
def Obligations.InPromptsReadsAndEchoes : Prop :=
  (∀ b rest s, s.input.pending = b :: rest → ∃ t, exec .trapIn s = .next t ∧
    Reads (BitVec.ofNat 16 b.toNat) { s.input with pending := rest } (Config.inPrompt ++ [b]) s t) ∧
  (∀ s : State, s.input = ⟨[], true⟩ → ∃ t, exec .trapIn s = .next t ∧
    Reads 0x00FF s.input (Config.inPrompt ++ [0xFF]) s t) ∧
  (∀ s : State, s.input = ⟨[], false⟩ → exec .trapIn s = .fault (.blockedOnInput Config.inPrompt))

/-- R151: OUT completes in every state, emitting bits 7:0 of R0. -/
def Obligations.OutEmitsTheLowByte : Prop :=
  ∀ s, ∃ t, exec .trapOut s = .next t ∧ Emits [BitVec.ofNat 8 ((s.reg 0).toNat % 256)] s t

/-- R152: PUTS completes whenever a zero word comes at some distance from R0, emitting the low bytes of the words before
it; addresses wrap and only a whole zero word ends the string. -/
def Obligations.PutsEmitsTheStringUpToTheZeroWord : Prop :=
  ∀ (s : State) (k : Nat), (∀ i < k, s.readMem (wordAt (s.reg 0) i) ≠ 0x0000) → s.readMem (wordAt (s.reg 0) k) = 0x0000 →
    ∃ t, exec .trapPuts s = .next t ∧
      Emits ((List.range k).map fun i => BitVec.ofNat 8 ((s.readMem (wordAt (s.reg 0) i)).toNat % 256)) s t

/-- R154: PUTSP completes whenever a null byte comes at some place of the packed string at R0, emitting the bytes before it,
low byte of a word first. That PUTSP is not the historical no-op is 90_conflicts.md C2. -/
def Obligations.PutspEmitsThePackedBytesUpToTheNull : Prop :=
  ∀ (s : State) (k : Nat), (∀ j < k, packedByte s (s.reg 0) j ≠ 0x00) → packedByte s (s.reg 0) k = 0x00 →
    ∃ t, exec .trapPutsp s = .next t ∧ Emits ((List.range k).map (packedByte s (s.reg 0))) s t

/-- R152, R154 (D11): with no terminator in the whole of memory, and only then, the string traps never complete. -/
def Obligations.StringTrapsHangExactlyWithoutATerminator : Prop :=
  ∀ s : State, (exec .trapPuts s = .fault .unterminatedString ↔ ∀ a, s.readMem a ≠ 0x0000) ∧
    (exec .trapPutsp s = .fault .unterminatedString ↔
      ∀ a, (s.readMem a).toNat % 256 ≠ 0 ∧ (s.readMem a).toNat / 256 ≠ 0)

/-- R155: HALT completes in every state, emitting the notice, for every value of HALT_NOTICE (D9), and halting the run. -/
def Obligations.HaltEmitsTheNoticeAndStops : Prop :=
  ∀ s, ∃ t, exec .trapHalt s = .next t ∧ StopsAs (.halted .trapHalt) Config.haltNotice s t

/-- R156 and 60_exceptions.md R161 (D13): an invalid vector takes the fault: run = FAULTED with the vector recorded, PC as
the fetch left it, nothing else changed and nothing emitted. -/
def Obligations.InvalidVectorFaultsPrecisely : Prop :=
  ∀ v s, ∃ t, exec (.trapInvalid v) s = .next t ∧ StopsAs (.faulted (.invalidTrapVector v)) [] s t

/-! ## The loop -/

/-- 40_dispatch.md R90: while RUNNING, a step fetches the word at PC, increments PC modulo 2^16 and runs the instruction the
word decodes to, which is the halt when the opcode is 0. That opcode 0 always halts is D2 (log entry 2), that the halt emits
nothing is D14 (log entry 19), and that bits no field reads are ignored is D4 (log entry 4). -/
def Obligations.StepRunsTheDecodedInstruction : Prop :=
  (∀ (s : State) (i : Instr), s.run = .running → decode false (s.mem.read s.pc) = .ok i →
    step s = exec i { s with pc := BitVec.ofNat 16 ((s.pc.toNat + 1) % 2 ^ 16) }) ∧
  (∀ s : State, s.run = .running → (s.mem.read s.pc).toNat / 2 ^ 12 = 0 →
    step s = .next { s with pc := BitVec.ofNat 16 ((s.pc.toNat + 1) % 2 ^ 16), run := .halted .sentinel })

/-- 30_encoding.md R75 (D4): with STRICT_UNUSED_BITS = true a step runs what decodes and refuses, by the word, what does
not. -/
def Obligations.StrictStepRunsOrRefuses : Prop :=
  (∀ (s : State) (i : Instr), s.run = .running → decode true (s.mem.read s.pc) = .ok i →
    stepWith true s = exec i { s with pc := s.pc + 1 }) ∧
  (∀ (s : State) (w : Word), s.run = .running → decode true (s.mem.read s.pc) = .error (.nonCanonicalUnusedBits w) →
    w = s.mem.read s.pc ∧ stepWith true s = .refused (.nonCanonicalUnusedBits w))

/-- 60_exceptions.md R163, R165; 93_implementation_defined.md U6, U7: an instruction completes exactly when the spec lets
it, and stops otherwise only by the two stuck cycles; no instruction is refused. -/
def Obligations.InstructionsCompleteExactlyWhenTheSpecLetsThem : Prop :=
  ∀ (i : Instr) (s : State), (completes i s ↔ ∃ t, exec i s = .next t) ∧
    (¬ completes i s → (∃ bs, exec i s = .fault (.blockedOnInput bs)) ∨ exec i s = .fault .unterminatedString)

/-- 60_exceptions.md R164 (D22): once HALTED or FAULTED, no number of steps changes the state. -/
def Obligations.StoppedCoreNeverChanges : Prop :=
  ∀ (s : State) (k : Nat), s.run ≠ .running → steps k s = .next s

/-- 60_exceptions.md R160, R161: a step takes a running core to FAULTED only by a TRAP word whose bits 7:0 are outside 0x20
to 0x25, and records exactly those bits. That TRAP's opcode is 15 is D1 (log entry 1, PRESUMED), and that the fault is a
state is D13 (log entry 17). -/
def Obligations.OnlyAnInvalidVectorFaults : Prop :=
  ∀ (s t : State) (c : Cause), s.run = .running → step s = .next t → t.run = .faulted c →
    s.fetch.toNat / 2 ^ 12 = 15 ∧ ¬ (0x20 ≤ s.fetch.toNat % 256 ∧ s.fetch.toNat % 256 ≤ 0x25) ∧
      c = .invalidTrapVector (BitVec.ofNat 8 (s.fetch.toNat % 256))

/-- 40_dispatch.md R91; 43_control.md R131 (D2): a running core that fetches a word below 0x1000 halts, whatever the word's
other bits and COND are, and emits nothing (D14, log entry 19); the branch unit plays no part. -/
def Obligations.EveryBranchWordHaltsTheCore : Prop :=
  ∀ s : State, s.run = .running → s.fetch.toNat < 0x1000 →
    step s = .next { s with pc := s.pc + 1, run := .halted .sentinel }

/-! ## Who writes what -/

/-- 10_state.md R22: an instruction changes no general register but those the rule names for it, and R0 only for GETC and
IN among the traps. -/
def Obligations.OnlyNamedWritersChangeRegisters : Prop :=
  ∀ (i : Instr) (s t : State), exec i s = .next t → ∀ r, t.reg r ≠ s.reg r →
    (∃ a b, i = .addReg r a b ∨ i = .andReg r a b) ∨ (∃ a m, i = .addImm r a m ∨ i = .andImm r a m) ∨
    (∃ a, i = .not r a) ∨ (∃ o, i = .ld r o ∨ i = .ldi r o ∨ i = .lea r o) ∨ (∃ b o, i = .ldr r b o) ∨
    (r = 7 ∧ ((∃ o, i = .jsr o) ∨ ∃ b, i = .jsrr b)) ∨ (r = 0 ∧ (i = .trapGetc ∨ i = .trapIn))

/-- 10_state.md R28: "Exactly ADD, AND, NOT, LD, LDI, LDR and LEA" write COND, each with SetCC of the value now in its
destination; every other instruction leaves COND unchanged. -/
def Obligations.ExactlyTheSevenSetCond : Prop :=
  ∀ (i : Instr) (s t : State), exec i s = .next t →
    (∀ d, ((∃ a b, i = .addReg d a b ∨ i = .andReg d a b) ∨ (∃ a m, i = .addImm d a m ∨ i = .andImm d a m) ∨
        (∃ a, i = .not d a) ∨ (∃ o, i = .ld d o ∨ i = .ldi d o ∨ i = .lea d o) ∨ (∃ b o, i = .ldr d b o)) →
      t.cond = flagFor (t.reg d)) ∧
    ((∀ d a b, i ≠ .addReg d a b ∧ i ≠ .andReg d a b) → (∀ d a m, i ≠ .addImm d a m ∧ i ≠ .andImm d a m) →
      (∀ d a, i ≠ .not d a) → (∀ d o, i ≠ .ld d o ∧ i ≠ .ldi d o ∧ i ≠ .lea d o) → (∀ d b o, i ≠ .ldr d b o) →
      t.cond = s.cond)

/-- 10_state.md R25: after the fetch increment only BR, JMP, JSR and JSRR write PC, and BR is never dispatched: a step that
completes leaves PC at the incremented value unless the fetched opcode is 4 or 12. Those two numbers are D1 (log entry 1,
PRESUMED). -/
def Obligations.OnlyJumpsAndCallsMovePc : Prop :=
  ∀ s t : State, s.run = .running → step s = .next t →
    s.fetch.toNat / 2 ^ 12 ≠ 4 → s.fetch.toNat / 2 ^ 12 ≠ 12 → t.pc = BitVec.ofNat 16 ((s.pc.toNat + 1) % 2 ^ 16)

/-- 60_exceptions.md R173: only GETC and IN read the input stream, and only OUT, PUTS, IN, PUTSP and HALT write the output
stream; 10_state.md R34: what has been emitted is never taken back. That a read takes at most one byte, the oldest, rests on
10_state.md R33 and 44_trap.md R150 and R153, and that no instruction changes whether the end is signalled on log entry 10
(DEDUCED). -/
def Obligations.OnlyTheTrapsUseTheConsole : Prop :=
  ∀ (i : Instr) (s t : State), exec i s = .next t →
    (t.input ≠ s.input → i = .trapGetc ∨ i = .trapIn) ∧
    (t.output ≠ s.output → i = .trapOut ∨ i = .trapPuts ∨ i = .trapIn ∨ i = .trapPutsp ∨ i = .trapHalt) ∧
    (∃ bs, t.output = s.output ++ bs) ∧
    (∃ bs, s.input.pending = bs ++ t.input.pending ∧ bs.length ≤ 1) ∧ t.input.ended = s.input.ended

/-! ## Memory accesses (20_memory.md) -/

/-- R45: how many words each instruction reads and writes after its fetch, the string traps by the length of what they emit,
counted in `instrAccesses`. That list stands beside the meanings and no step reads it (log entry 29);
`StepWritesOnlyListedWords` and `StepDependsOnlyOnListedWords` tie it to what a step does. -/
def Obligations.AccessesAreThoseOfTheTable : Prop :=
  ∀ (i : Instr) (s t : State), exec i s = .next t →
    let reads := ((instrAccesses i s).filterMap Access.readAddr).length
    let writes := ((instrAccesses i s).filterMap Access.writeAddr).length
    let emitted := t.output.length - s.output.length
    match i with
    | .ld _ _ | .ldr _ _ _ => reads = 1 ∧ writes = 0
    | .ldi _ _ => reads = 2 ∧ writes = 0
    | .st _ _ | .str _ _ _ => reads = 0 ∧ writes = 1
    | .sti _ _ => reads = 1 ∧ writes = 1
    | .trapPuts => reads = emitted + 1 ∧ writes = 0
    | .trapPutsp => reads = (emitted + 2) / 2 ∧ writes = 0
    | _ => reads = 0 ∧ writes = 0

/-- R45: the order and the addresses of an instruction's accesses after its fetch, and the fetch itself at the old PC, by the
words each rule computes them from. Of the same lists as `AccessesAreThoseOfTheTable` (log entry 29), tied to a step by the
next two statements. -/
def Obligations.AccessesComeInOrderAtTheirAddresses : Prop :=
  (∀ (i : Instr) (s t : State), exec i s = .next t →
    let emitted := t.output.length - s.output.length
    instrAccesses i s =
      match i with
      | .ld _ off => [.read (s.pc + sext off)]
      | .ldr _ b off => [.read (s.reg b + sext off)]
      | .ldi _ off => [.read (s.pc + sext off), .read (s.readMem (s.pc + sext off))]
      | .st _ off => [.write (s.pc + sext off)]
      | .str _ b off => [.write (s.reg b + sext off)]
      | .sti _ off => [.read (s.pc + sext off), .write (s.readMem (s.pc + sext off))]
      | .trapPuts => (List.range (emitted + 1)).map fun k => .read (wordAt (s.reg 0) k)
      | .trapPutsp => (List.range ((emitted + 2) / 2)).map fun k => .read (wordAt (s.reg 0) k)
      | _ => []) ∧
  (∀ s : State, s.run = .running →
    cycleAccesses s = .fetch s.pc :: instrAccesses (decodeWord s.fetch) { s with pc := s.pc + 1 }) ∧
  (∀ s : State, s.run ≠ .running → cycleAccesses s = [])

/-- R40, R42: a step changes no word that its cycle does not write. -/
def Obligations.StepWritesOnlyListedWords : Prop :=
  ∀ s t : State, step s = .next t → ∀ a, Access.write a ∉ cycleAccesses s → t.readMem a = s.readMem a

/-- R45, R47, R51, R157: a step depends on memory only through the words its cycle fetches and reads. With any other memory
that agrees there, the step completes with the same registers, PC, COND, run state and console, and the same words
written. So no trap depends on a vector table in memory. -/
def Obligations.StepDependsOnlyOnListedWords : Prop :=
  ∀ (s t : State) (m : Memory), step s = .next t →
    (∀ a ∈ (cycleAccesses s).filterMap Access.readAddr, m.read a = s.readMem a) →
    ∃ t', step { s with mem := m } = .next t' ∧ { t' with mem := t.mem } = t ∧
      (∀ a, t'.readMem a = if Access.write a ∈ cycleAccesses s then t.readMem a else m.read a)

/-- R50, 10_state.md R35: ST, STI or STR, as the running instruction, stores at its address and changes nothing else but PC,
wherever that address is. When it is the incremented PC, the next step fetches and runs the stored word. When it is the
store's own word, the store still does exactly this, as the word fetched says. -/
def Obligations.StoresAreFetchedByTheNextCycle : Prop :=
  ∀ (s : State) (sr : Reg) (a : Word), s.run = .running →
    ((∃ off, decodeWord s.fetch = .st sr off ∧ a = s.pc + 1 + sext off) ∨
      (∃ off, decodeWord s.fetch = .sti sr off ∧ a = s.readMem (s.pc + 1 + sext off)) ∨
      (∃ b off, decodeWord s.fetch = .str sr b off ∧ a = s.reg b + sext off)) →
    ∃ t, step s = .next t ∧ StoresWord a (s.reg sr) { s with pc := s.pc + 1 } t ∧
      (a = s.pc + 1 → t.fetch = s.reg sr ∧ step t = exec (decodeWord (s.reg sr)) { t with pc := t.pc + 1 }) ∧
      (a = s.pc → t.readMem s.pc = s.reg sr ∧ ∀ b, b ≠ s.pc → t.readMem b = s.readMem b)

/-! ## The host -/

/-- 10_state.md R33; 60_exceptions.md R170 (D20): a core blocked in GETC or IN stays blocked until the host supplies a byte or
signals the end, and then the same cycle completes, with that byte, or with 0x00FF. -/
def Obligations.BlockedCoreCompletesWhenTheHostAnswers : Prop :=
  ∀ (s : State) (bs : List Byte), step s = .fault (.blockedOnInput bs) →
    step (s.supply []) = .fault (.blockedOnInput bs) ∧
    (∀ b more, ∃ t, step (s.supply (b :: more)) = .next t ∧ t.reg 0 = BitVec.ofNat 16 b.toNat ∧ t.input = ⟨more, false⟩ ∧
      t.pc = s.pc + 1) ∧
    (∃ t, step s.signalEnd = .next t ∧ t.reg 0 = 0x00FF ∧ t.input = ⟨[], true⟩ ∧ t.pc = s.pc + 1)

/-- 60_exceptions.md R166: success exactly after HALTED, failure after FAULTED or a load error, nothing while running. -/
def Obligations.ExitIndicationFollowsTheRunState : Prop :=
  (∀ s : State, (s.exitIndication = some .success ↔ ∃ r, s.run = .halted r) ∧
    (s.exitIndication = some .failure ↔ ∃ c, s.run = .faulted c) ∧ (s.exitIndication = none ↔ s.run = .running)) ∧
  (∀ images input, (∃ e, boot images input = .error e) ↔ bootExit (boot images input) = some .failure)

/-! ## Reset and the loader (70_reset_and_hazards.md) -/

/-- 10_state.md R36 and R180, what the source fixes: every word 0x0000, PC = 0x3000 (C3, D19), RUNNING, nothing emitted. -/
def Obligations.ResetLeavesWhatTheSourceFixes : Prop :=
  (∀ a, State.reset.readMem a = 0x0000) ∧ State.reset.pc = 0x3000 ∧ State.reset.run = .running ∧ State.reset.output = []

/-- The reset values the source does not fix, the spec's choices D5 (R0 to R7 zero) and D6 (COND = ZERO): log entries 6
and 7. -/
def Obligations.ResetRegistersAreTheChosenValues : Prop :=
  (∀ r, State.reset.reg r = 0x0000) ∧ State.reset.cond = 0x0002

/-- R183, R184: when an image loads, the i-th data word, big-endian, is at origin + i, and no other word changes: neither the
origin word nor a wrapped address is stored to. -/
def Obligations.ValidImageIsCopiedVerbatim : Prop :=
  ∀ (m m' : Memory) (b0 b1 : Byte) (body : List Byte), loadImage m (some (b0 :: b1 :: body)) = .ok m' →
    b0.toNat * 256 + b1.toNat + body.length / 2 ≤ 65536 ∧
      (∀ i, ∀ hi lo : Byte, body[2 * i]? = some hi → body[2 * i + 1]? = some lo →
        (m'.read (BitVec.ofNat 16 (b0.toNat * 256 + b1.toNat + i))).toNat = hi.toNat * 256 + lo.toNat) ∧
      (∀ a : Word, (a.toNat < b0.toNat * 256 + b1.toNat ∨ b0.toNat * 256 + b1.toNat + body.length / 2 ≤ a.toNat) →
        m'.read a = m.read a)

/-- R185 (D18 for LoadTooShort and for the bound): which error an image gives, in the order of the checks, and that an image
that passes them loads. -/
def Obligations.LoadErrorsAreCheckedInOrder : Prop :=
  ∀ m : Memory, loadImage m none = .error .unreadable ∧
    (∀ bytes : List Byte, bytes.length < 2 → loadImage m (some bytes) = .error .tooShort) ∧
    (∀ (b0 b1 : Byte) (body : List Byte), body.length % 2 = 1 →
      loadImage m (some (b0 :: b1 :: body)) = .error .oddLength) ∧
    (∀ (b0 b1 : Byte) (body : List Byte), body.length % 2 = 0 →
      65536 < b0.toNat * 256 + b1.toNat + body.length / 2 → loadImage m (some (b0 :: b1 :: body)) = .error .overflow) ∧
    (∀ (b0 b1 : Byte) (body : List Byte), body.length % 2 = 0 →
      b0.toNat * 256 + b1.toNat + body.length / 2 ≤ 65536 → ∃ m', loadImage m (some (b0 :: b1 :: body)) = .ok m')

/-- R186, R187; 60_exceptions.md R165 (D18): images are loaded in order, each over what the earlier ones left; the first
that fails is the boot's error, and then there is no state to run. -/
def Obligations.ImagesLoadInOrderOrTheFirstFailureStops : Prop :=
  ∀ (before after : List Image) (image : Image) (input : InStream) (s : State), boot before input = .ok s →
    (∀ e, loadImage s.mem image = .error e → boot (before ++ image :: after) input = .error e) ∧
    (∀ m, loadImage s.mem image = .ok m → boot (before ++ [image]) input = .ok { s with mem := m })

/-- R180 to R182, R186: a boot that succeeds starts at 0x3000 whatever the images' origins, RUNNING, with nothing emitted and
the host's input stream; with no image the first step halts at the sentinel. The start PC is D19 (log entry 23), the registers
and COND are D5 and D6, and the silent halt is D2 and D14 (log entries 2 and 19). -/
def Obligations.BootAlwaysStartsAtTheFixedPc : Prop :=
  (∀ images input s, boot images input = .ok s →
    s.pc = 0x3000 ∧ s.run = .running ∧ s.output = [] ∧ s.input = input ∧ s.cond = State.reset.cond ∧
      ∀ r, s.reg r = State.reset.reg r) ∧
  (∀ input, ∃ s, boot [] input = .ok s ∧ step s = .next { s with pc := 0x3001, run := .halted .sentinel })

/-! ## Invariants -/

/-- Every step, of every value of STRICT_UNUSED_BITS, keeps the canonical form of memory and the legality of COND: "COND
always holds exactly one of" the three flags (10_state.md R26, R30). -/
def Obligations.StepKeepsTheInvariant : Prop :=
  ∀ (strict : Bool) (s t : State), s.Inv → stepWith strict s = .next t → t.Inv

/-- The invariant holds at reset (COND by D6). -/
def Obligations.ResetHasTheInvariant : Prop := State.reset.Inv

/-- 10_state.md R30: COND holds 0x0001, 0x0002 or 0x0004 at every point of every run: from any boot, through any steps and
any host moves (at reset by D6, log entry 7); and memory is canonical there, a form that is the model's (log entry 20). -/
def Obligations.EveryReachableStateIsLegal : Prop := ∀ s : State, Reachable s → s.Inv

/-! ## REG_RESET (00_scope.md R6) -/

/-- R6, R36: a run under REG_RESET = unwritten that does not fault does not depend on the registers' reset values, whatever
STRICT_UNUSED_BITS is. Two tracked cores that differ only in registers that hold no value take the same step: either both
complete, and again differ only there, or both stop for the same reason. -/
def Obligations.UnwrittenRegistersNeverMatter : Prop :=
  ∀ (strict : Bool) (t u : Tracked), t.written = u.written → t.condWritten = u.condWritten →
    (∀ r, t.written.get r = true → t.core.reg r = u.core.reg r) → (t.condWritten = true → t.core.cond = u.core.cond) →
    { t.core with regs := u.core.regs, cond := u.core.cond } = u.core →
    (∃ t' u', t.stepWith strict = .next t' ∧ u.stepWith strict = .next u' ∧
      t'.written = u'.written ∧ t'.condWritten = u'.condWritten ∧
      (∀ r, t'.written.get r = true → t'.core.reg r = u'.core.reg r) ∧
      (t'.condWritten = true → t'.core.cond = u'.core.cond) ∧
      { t'.core with regs := u'.core.regs, cond := u'.core.cond } = u'.core) ∨
    (∃ f, t.stepWith strict = .fault f ∧ u.stepWith strict = .fault f) ∨
    (∃ r, t.stepWith strict = .refused r ∧ u.stepWith strict = .refused r)

/-- R6: under REG_RESET = zero the tracked machine is this hardware, for both values of STRICT_UNUSED_BITS: from a start of it
it never faults on an unwritten register, and its steps are the core's. -/
def Obligations.ZeroPolicyIsTheCore : Prop :=
  ∀ (strict : Bool) (s : State), match stepWith strict s with
    | .next s' => (Tracked.start .zero s).stepWith strict = .next (Tracked.start .zero s')
    | .fault f => (Tracked.start .zero s).stepWith strict = .fault (.coreFault f)
    | .refused r => (Tracked.start .zero s).stepWith strict = .refused r

/-- R36 and 10_state.md R22: a running tracked core stops on an unwritten register exactly when the instruction reads one that
holds no value, and names the first such one in the order of its rule. The registers are listed here by R22, one line for
the instructions of one shape. AND Rn, Rn, #0 reads Rn, and JSRR R7 reads no old R7 (log entry 8, DEDUCED). At a start under
`unwritten` no register holds a value, so the first register listed is the one. COND is read by BR alone, as a unit
operation (R29). With STRICT_UNUSED_BITS = true a word that does not decode is refused, whatever is unwritten. -/
def Obligations.UnwrittenPolicyFaultsOnTheFirstRead : Prop :=
  let reads : Instr → List Reg := fun i =>
    match i with
    | .addReg _ sr1 sr2 | .andReg _ sr1 sr2 => [sr1, sr2]
    | .addImm _ sr1 _ | .andImm _ sr1 _ | .not _ sr1 => [sr1]
    | .st sr _ | .sti sr _ => [sr]
    | .str sr b _ => [b, sr]
    | .ldr _ b _ | .jmp b => [b]
    | .jsrr b => if b = 7 then [] else [b]
    | .trapOut | .trapPuts | .trapPutsp => [0]
    | .sentinel | .br _ _ | .ld _ _ | .ldi _ _ | .lea _ _ | .jsr _ | .rti | .res | .trapGetc | .trapIn | .trapHalt
    | .trapInvalid _ => []
  (∀ (strict : Bool) (t : Tracked) (i : Instr), t.core.run = .running → decode strict t.core.fetch = .ok i → ∀ r : Reg,
    t.stepWith strict = .fault (.unwrittenRegister r) ↔
      ∃ before after, reads i = before ++ r :: after ∧ t.written.get r = false ∧ ∀ q ∈ before, t.written.get q = true) ∧
  (∀ (strict : Bool) (s : State) (i : Instr) (r : Reg) (rest : List Reg), s.run = .running → decode strict s.fetch = .ok i →
    reads i = r :: rest → (Tracked.start .unwritten s).stepWith strict = .fault (.unwrittenRegister r)) ∧
  (∀ (i : Instr) (t : Tracked) (s : State), Tracked.exec i t s = .fault .unwrittenCond ↔
    (∃ conds off, i = .br conds off) ∧ t.condWritten = false) ∧
  (∀ (t : Tracked) (w : Word), t.core.run = .running → decode true t.core.fetch = .error (.nonCanonicalUnusedBits w) →
    t.stepWith true = .refused (.nonCanonicalUnusedBits w))
end

