-- ==== Sys2Proof/Laws/Decode.lean ====
section
/-! SUPPORT. The fields of a packed word, format by format (30_encoding.md R65 to R72), by arithmetic on the word's number;
and the small lemmas of opcodes, registers and trap vectors. -/

namespace Sys2Proof

/-! ## Bits as numbers -/

theorem toNat_append_eq {n m : Nat} (a : BitVec n) (b : BitVec m) : (a ++ b).toNat = a.toNat * 2 ^ m + b.toNat := by
  rw [BitVec.toNat_append, ← Nat.shiftLeft_add_eq_or_of_lt b.isLt, Nat.shiftLeft_eq]

theorem toNat_field (w : Word) (lo len : Nat) : (field w lo len).toNat = w.toNat / 2 ^ lo % 2 ^ len := by
  simp [field, BitVec.extractLsb'_toNat, Nat.shiftRight_eq_div_pow]

theorem getLsbD_eq_decide {n : Nat} (w : BitVec n) (i : Nat) : w.getLsbD i = decide (w.toNat / 2 ^ i % 2 = 1) := by
  rw [BitVec.getLsbD, Nat.testBit_eq_decide_div_mod_eq]

/-! ## Opcodes, registers, vectors -/

@[simp] theorem Opcode.ofBits_bits (op : Opcode) : Opcode.ofBits op.bits = op := by cases op <;> rfl

@[simp] theorem Opcode.bits_ofBits (b : BitVec 4) : (Opcode.ofBits b).bits = b := by revert b; decide

@[simp] theorem Reg.ofBits_bits (r : Reg) : Reg.ofBits (Reg.bits r) = r := rfl

@[simp] theorem Reg.bits_ofBits (b : BitVec 3) : Reg.bits (Reg.ofBits b) = b := rfl

/-- A vector outside 0x20 to 0x25 decodes to the row that carries it. -/
theorem decodeTrap_invalid {v : BitVec 8} (h : validTrapVector v = false) : decodeTrap v = .trapInvalid v := by
  revert v; decide

/-! ## Fields of packed words -/

section Formats

variable (op x : BitVec 4) (d s t z : BitVec 3) (o5 : BitVec 5) (o6 : BitVec 6) (v8 : BitVec 8) (o9 : BitVec 9)
  (o11 : BitVec 11) (o12 : BitVec 12) (b : BitVec 1)

/-- ALU-R: opcode, DR, SR1, three bits, SR2. -/
theorem field_aluR :
    field (op ++ d ++ s ++ z ++ t) 12 4 = op ∧ field (op ++ d ++ s ++ z ++ t) 9 3 = d ∧
      field (op ++ d ++ s ++ z ++ t) 6 3 = s ∧ field (op ++ d ++ s ++ z ++ t) 3 3 = z ∧
      field (op ++ d ++ s ++ z ++ t) 0 3 = t := by
  have := op.isLt; have := d.isLt; have := s.isLt; have := z.isLt; have := t.isLt
  refine ⟨?_, ?_, ?_, ?_, ?_⟩ <;> apply BitVec.eq_of_toNat_eq <;> simp only [toNat_field, toNat_append_eq] <;> omega

/-- ALU-I: opcode, DR, SR1, the mode bit, imm5. -/
theorem field_aluI :
    field (op ++ d ++ s ++ b ++ o5) 12 4 = op ∧ field (op ++ d ++ s ++ b ++ o5) 9 3 = d ∧
      field (op ++ d ++ s ++ b ++ o5) 6 3 = s ∧ field (op ++ d ++ s ++ b ++ o5) 5 1 = b ∧
      field (op ++ d ++ s ++ b ++ o5) 0 5 = o5 := by
  have := op.isLt; have := d.isLt; have := s.isLt; have := b.isLt; have := o5.isLt
  refine ⟨?_, ?_, ?_, ?_, ?_⟩ <;> apply BitVec.eq_of_toNat_eq <;> simp only [toNat_field, toNat_append_eq] <;> omega

/-- PC9: opcode, register or conds, PCoffset9. -/
theorem field_pc9 :
    field (op ++ d ++ o9) 12 4 = op ∧ field (op ++ d ++ o9) 9 3 = d ∧ field (op ++ d ++ o9) 0 9 = o9 := by
  have := op.isLt; have := d.isLt; have := o9.isLt
  refine ⟨?_, ?_, ?_⟩ <;> apply BitVec.eq_of_toNat_eq <;> simp only [toNat_field, toNat_append_eq] <;> omega

/-- BASE6, NOT and BASE: opcode, three bits, a register, six bits. -/
theorem field_base6 :
    field (op ++ d ++ s ++ o6) 12 4 = op ∧ field (op ++ d ++ s ++ o6) 9 3 = d ∧
      field (op ++ d ++ s ++ o6) 6 3 = s ∧ field (op ++ d ++ s ++ o6) 0 6 = o6 := by
  have := op.isLt; have := d.isLt; have := s.isLt; have := o6.isLt
  refine ⟨?_, ?_, ?_, ?_⟩ <;> apply BitVec.eq_of_toNat_eq <;> simp only [toNat_field, toNat_append_eq] <;> omega

/-- PC11: opcode, the L bit, PCoffset11. -/
theorem field_pc11 :
    field (op ++ b ++ o11) 12 4 = op ∧ field (op ++ b ++ o11) 11 1 = b ∧ field (op ++ b ++ o11) 0 11 = o11 := by
  have := op.isLt; have := b.isLt; have := o11.isLt
  refine ⟨?_, ?_, ?_⟩ <;> apply BitVec.eq_of_toNat_eq <;> simp only [toNat_field, toNat_append_eq] <;> omega

/-- TRAP: opcode, four bits, the vector. -/
theorem field_trap :
    field (op ++ x ++ v8) 12 4 = op ∧ field (op ++ x ++ v8) 8 4 = x ∧ field (op ++ x ++ v8) 0 8 = v8 := by
  have := op.isLt; have := x.isLt; have := v8.isLt
  refine ⟨?_, ?_, ?_⟩ <;> apply BitVec.eq_of_toNat_eq <;> simp only [toNat_field, toNat_append_eq] <;> omega

/-- NONE: opcode, twelve bits. -/
theorem field_none : field (op ++ o12) 12 4 = op ∧ field (op ++ o12) 0 12 = o12 := by
  have := op.isLt; have := o12.isLt
  refine ⟨?_, ?_⟩ <;> apply BitVec.eq_of_toNat_eq <;> simp only [toNat_field, toNat_append_eq] <;> omega

end Formats

/-! ## The single bits as fields -/

theorem fieldMode_eq (w : Word) : fieldMode w = decide (field w 5 1 = 1#1) := by
  rw [fieldMode, getLsbD_eq_decide, decide_eq_decide, ← BitVec.toNat_inj, toNat_field]; rfl

theorem fieldL_eq (w : Word) : fieldL w = decide (field w 11 1 = 1#1) := by
  rw [fieldL, getLsbD_eq_decide, decide_eq_decide, ← BitVec.toNat_inj, toNat_field]; rfl

/-- The bits of a shorter field as bits of a longer one that begins at the same place. -/
theorem fieldMode_aluR (op : BitVec 4) (d s z t : BitVec 3) :
    fieldMode (op ++ d ++ s ++ z ++ t) = z.getLsbD 2 := by
  have := op.isLt; have := d.isLt; have := s.isLt; have := z.isLt; have := t.isLt
  rw [fieldMode, getLsbD_eq_decide, getLsbD_eq_decide]
  simp only [toNat_append_eq, decide_eq_decide]
  omega

theorem fieldL_base6 (op : BitVec 4) (d s : BitVec 3) (o6 : BitVec 6) :
    fieldL (op ++ d ++ s ++ o6) = d.getLsbD 2 := by
  have := op.isLt; have := d.isLt; have := s.isLt; have := o6.isLt
  rw [fieldL, getLsbD_eq_decide, getLsbD_eq_decide]
  simp only [toNat_append_eq, decide_eq_decide]
  omega

/-- The unread bits of a packed word: of ALU-R bits 4:3, of JSRR bits 10:9. -/
theorem field_unused_aluR (op : BitVec 4) (d s t : BitVec 3) :
    field (op ++ d ++ s ++ 0b000#3 ++ t) 3 2 = 0b00#2 := by
  have := op.isLt; have := d.isLt; have := s.isLt; have := t.isLt
  apply BitVec.eq_of_toNat_eq; simp only [toNat_field, toNat_append_eq, BitVec.toNat_ofNat]; omega

theorem field_unused_jsrr (op : BitVec 4) (s : BitVec 3) (o6 : BitVec 6) :
    field (op ++ 0b000#3 ++ s ++ o6) 9 2 = 0b00#2 := by
  have := op.isLt; have := s.isLt; have := o6.isLt
  apply BitVec.eq_of_toNat_eq; simp only [toNat_field, toNat_append_eq, BitVec.toNat_ofNat]; omega

/-- The decoder without STRICT_UNUSED_BITS refuses nothing (30_encoding.md R77). -/
@[simp] theorem decode_false (w : Word) : decode false w = .ok (decodeWord w) := by simp [decode]

/-- The decoder with it refuses exactly the words whose unread bits are not canonical (R75). -/
theorem decode_true (w : Word) :
    decode true w = if canonicalUnusedBits w then .ok (decodeWord w) else .error (.nonCanonicalUnusedBits w) := by
  cases h : canonicalUnusedBits w <;> simp [decode, h]

end Sys2Proof
end

