-- ==== Sys2Proof/Laws/State.lean ====
section
/-! SUPPORT. One lemma per field per update of the state, so that no later proof unfolds a record update; then what a
register reads as after each update. -/

namespace Sys2Proof.Machine

variable (s : State)

@[simp] theorem State.setReg_regs (r : Reg) (v : Word) : (s.setReg r v).regs = s.regs.set r v := rfl
@[simp] theorem State.setReg_pc (r : Reg) (v : Word) : (s.setReg r v).pc = s.pc := rfl
@[simp] theorem State.setReg_cond (r : Reg) (v : Word) : (s.setReg r v).cond = s.cond := rfl
@[simp] theorem State.setReg_mem (r : Reg) (v : Word) : (s.setReg r v).mem = s.mem := rfl
@[simp] theorem State.setReg_run (r : Reg) (v : Word) : (s.setReg r v).run = s.run := rfl
@[simp] theorem State.setReg_input (r : Reg) (v : Word) : (s.setReg r v).input = s.input := rfl
@[simp] theorem State.setReg_output (r : Reg) (v : Word) : (s.setReg r v).output = s.output := rfl

@[simp] theorem State.setPc_regs (v : Word) : (s.setPc v).regs = s.regs := rfl
@[simp] theorem State.setPc_pc (v : Word) : (s.setPc v).pc = v := rfl
@[simp] theorem State.setPc_cond (v : Word) : (s.setPc v).cond = s.cond := rfl
@[simp] theorem State.setPc_mem (v : Word) : (s.setPc v).mem = s.mem := rfl
@[simp] theorem State.setPc_run (v : Word) : (s.setPc v).run = s.run := rfl
@[simp] theorem State.setPc_input (v : Word) : (s.setPc v).input = s.input := rfl
@[simp] theorem State.setPc_output (v : Word) : (s.setPc v).output = s.output := rfl

@[simp] theorem State.advancePc_regs : s.advancePc.regs = s.regs := rfl
@[simp] theorem State.advancePc_pc : s.advancePc.pc = s.pc + 1 := rfl
@[simp] theorem State.advancePc_cond : s.advancePc.cond = s.cond := rfl
@[simp] theorem State.advancePc_mem : s.advancePc.mem = s.mem := rfl
@[simp] theorem State.advancePc_run : s.advancePc.run = s.run := rfl
@[simp] theorem State.advancePc_input : s.advancePc.input = s.input := rfl
@[simp] theorem State.advancePc_output : s.advancePc.output = s.output := rfl

@[simp] theorem State.writeMem_regs (a v : Word) : (s.writeMem a v).regs = s.regs := rfl
@[simp] theorem State.writeMem_pc (a v : Word) : (s.writeMem a v).pc = s.pc := rfl
@[simp] theorem State.writeMem_cond (a v : Word) : (s.writeMem a v).cond = s.cond := rfl
@[simp] theorem State.writeMem_mem (a v : Word) : (s.writeMem a v).mem = s.mem.write a v := rfl
@[simp] theorem State.writeMem_run (a v : Word) : (s.writeMem a v).run = s.run := rfl
@[simp] theorem State.writeMem_input (a v : Word) : (s.writeMem a v).input = s.input := rfl
@[simp] theorem State.writeMem_output (a v : Word) : (s.writeMem a v).output = s.output := rfl

@[simp] theorem State.setCC_regs (v : Word) : (s.setCC v).regs = s.regs := rfl
@[simp] theorem State.setCC_pc (v : Word) : (s.setCC v).pc = s.pc := rfl
@[simp] theorem State.setCC_cond (v : Word) : (s.setCC v).cond = condOf v := rfl
@[simp] theorem State.setCC_mem (v : Word) : (s.setCC v).mem = s.mem := rfl
@[simp] theorem State.setCC_run (v : Word) : (s.setCC v).run = s.run := rfl
@[simp] theorem State.setCC_input (v : Word) : (s.setCC v).input = s.input := rfl
@[simp] theorem State.setCC_output (v : Word) : (s.setCC v).output = s.output := rfl

@[simp] theorem State.writeResult_regs (r : Reg) (v : Word) : (s.writeResult r v).regs = s.regs.set r v := rfl
@[simp] theorem State.writeResult_pc (r : Reg) (v : Word) : (s.writeResult r v).pc = s.pc := rfl
@[simp] theorem State.writeResult_cond (r : Reg) (v : Word) : (s.writeResult r v).cond = condOf v := rfl
@[simp] theorem State.writeResult_mem (r : Reg) (v : Word) : (s.writeResult r v).mem = s.mem := rfl
@[simp] theorem State.writeResult_run (r : Reg) (v : Word) : (s.writeResult r v).run = s.run := rfl
@[simp] theorem State.writeResult_input (r : Reg) (v : Word) : (s.writeResult r v).input = s.input := rfl
@[simp] theorem State.writeResult_output (r : Reg) (v : Word) : (s.writeResult r v).output = s.output := rfl

@[simp] theorem State.emit_regs (b : Byte) : (s.emit b).regs = s.regs := rfl
@[simp] theorem State.emit_pc (b : Byte) : (s.emit b).pc = s.pc := rfl
@[simp] theorem State.emit_cond (b : Byte) : (s.emit b).cond = s.cond := rfl
@[simp] theorem State.emit_mem (b : Byte) : (s.emit b).mem = s.mem := rfl
@[simp] theorem State.emit_run (b : Byte) : (s.emit b).run = s.run := rfl
@[simp] theorem State.emit_input (b : Byte) : (s.emit b).input = s.input := rfl
@[simp] theorem State.emit_output (b : Byte) : (s.emit b).output = s.output ++ [b] := rfl

@[simp] theorem State.emitString_regs (bs : List Byte) : (s.emitString bs).regs = s.regs := rfl
@[simp] theorem State.emitString_pc (bs : List Byte) : (s.emitString bs).pc = s.pc := rfl
@[simp] theorem State.emitString_cond (bs : List Byte) : (s.emitString bs).cond = s.cond := rfl
@[simp] theorem State.emitString_mem (bs : List Byte) : (s.emitString bs).mem = s.mem := rfl
@[simp] theorem State.emitString_run (bs : List Byte) : (s.emitString bs).run = s.run := rfl
@[simp] theorem State.emitString_input (bs : List Byte) : (s.emitString bs).input = s.input := rfl
@[simp] theorem State.emitString_output (bs : List Byte) : (s.emitString bs).output = s.output ++ bs := rfl

@[simp] theorem State.halt_regs (k : HaltReason) : (s.halt k).regs = s.regs := rfl
@[simp] theorem State.halt_pc (k : HaltReason) : (s.halt k).pc = s.pc := rfl
@[simp] theorem State.halt_cond (k : HaltReason) : (s.halt k).cond = s.cond := rfl
@[simp] theorem State.halt_mem (k : HaltReason) : (s.halt k).mem = s.mem := rfl
@[simp] theorem State.halt_run (k : HaltReason) : (s.halt k).run = .halted k := rfl
@[simp] theorem State.halt_input (k : HaltReason) : (s.halt k).input = s.input := rfl
@[simp] theorem State.halt_output (k : HaltReason) : (s.halt k).output = s.output := rfl

@[simp] theorem State.raiseFault_regs (c : Cause) : (s.raiseFault c).regs = s.regs := rfl
@[simp] theorem State.raiseFault_pc (c : Cause) : (s.raiseFault c).pc = s.pc := rfl
@[simp] theorem State.raiseFault_cond (c : Cause) : (s.raiseFault c).cond = s.cond := rfl
@[simp] theorem State.raiseFault_mem (c : Cause) : (s.raiseFault c).mem = s.mem := rfl
@[simp] theorem State.raiseFault_run (c : Cause) : (s.raiseFault c).run = .faulted c := rfl
@[simp] theorem State.raiseFault_input (c : Cause) : (s.raiseFault c).input = s.input := rfl
@[simp] theorem State.raiseFault_output (c : Cause) : (s.raiseFault c).output = s.output := rfl

@[simp] theorem State.link_regs : s.link.regs = s.regs.set 7 s.pc := rfl
@[simp] theorem State.link_pc : s.link.pc = s.pc := rfl
@[simp] theorem State.link_cond : s.link.cond = s.cond := rfl
@[simp] theorem State.link_mem : s.link.mem = s.mem := rfl
@[simp] theorem State.link_run : s.link.run = s.run := rfl
@[simp] theorem State.link_input : s.link.input = s.input := rfl
@[simp] theorem State.link_output : s.link.output = s.output := rfl

@[simp] theorem State.supply_regs (bs : List Byte) : (s.supply bs).regs = s.regs := rfl
@[simp] theorem State.supply_pc (bs : List Byte) : (s.supply bs).pc = s.pc := rfl
@[simp] theorem State.supply_cond (bs : List Byte) : (s.supply bs).cond = s.cond := rfl
@[simp] theorem State.supply_mem (bs : List Byte) : (s.supply bs).mem = s.mem := rfl
@[simp] theorem State.supply_run (bs : List Byte) : (s.supply bs).run = s.run := rfl
@[simp] theorem State.supply_input (bs : List Byte) : (s.supply bs).input = s.input.supply bs := rfl
@[simp] theorem State.supply_output (bs : List Byte) : (s.supply bs).output = s.output := rfl

@[simp] theorem State.signalEnd_regs : s.signalEnd.regs = s.regs := rfl
@[simp] theorem State.signalEnd_pc : s.signalEnd.pc = s.pc := rfl
@[simp] theorem State.signalEnd_cond : s.signalEnd.cond = s.cond := rfl
@[simp] theorem State.signalEnd_mem : s.signalEnd.mem = s.mem := rfl
@[simp] theorem State.signalEnd_run : s.signalEnd.run = s.run := rfl
@[simp] theorem State.signalEnd_input : s.signalEnd.input = s.input.signalEnd := rfl
@[simp] theorem State.signalEnd_output : s.signalEnd.output = s.output := rfl

/-! ## Registers -/

@[simp] theorem State.reg_setReg (r q : Reg) (v : Word) : (s.setReg r v).reg q = if r = q then v else s.reg q := by
  simp [State.reg, State.setReg, Vector.get_eq_getElem, Vector.getElem_set, Fin.ext_iff]

theorem State.reg_setReg_same (r : Reg) (v : Word) : (s.setReg r v).reg r = v := by simp

theorem State.reg_setReg_ne {r q : Reg} (h : r ≠ q) (v : Word) : (s.setReg r v).reg q = s.reg q := by simp [h]

@[simp] theorem State.reg_writeResult (r q : Reg) (v : Word) :
    (s.writeResult r v).reg q = if r = q then v else s.reg q := s.reg_setReg r q v

@[simp] theorem State.reg_link (q : Reg) : s.link.reg q = if 7 = q then s.pc else s.reg q := s.reg_setReg 7 q s.pc

@[simp] theorem State.reg_setPc (q : Reg) (v : Word) : (s.setPc v).reg q = s.reg q := rfl
@[simp] theorem State.reg_advancePc (q : Reg) : s.advancePc.reg q = s.reg q := rfl
@[simp] theorem State.reg_writeMem (q : Reg) (a v : Word) : (s.writeMem a v).reg q = s.reg q := rfl
@[simp] theorem State.reg_setCC (q : Reg) (v : Word) : (s.setCC v).reg q = s.reg q := rfl
@[simp] theorem State.reg_emit (q : Reg) (b : Byte) : (s.emit b).reg q = s.reg q := rfl
@[simp] theorem State.reg_emitString (q : Reg) (bs : List Byte) : (s.emitString bs).reg q = s.reg q := rfl
@[simp] theorem State.reg_halt (q : Reg) (k : HaltReason) : (s.halt k).reg q = s.reg q := rfl
@[simp] theorem State.reg_raiseFault (q : Reg) (c : Cause) : (s.raiseFault c).reg q = s.reg q := rfl
@[simp] theorem State.reg_supply (q : Reg) (bs : List Byte) : (s.supply bs).reg q = s.reg q := rfl
@[simp] theorem State.reg_signalEnd (q : Reg) : s.signalEnd.reg q = s.reg q := rfl

/-! ## Memory words -/

@[simp] theorem State.readMem_setReg (a : Word) (r : Reg) (v : Word) : (s.setReg r v).readMem a = s.readMem a := rfl
@[simp] theorem State.readMem_setPc (a : Word) (v : Word) : (s.setPc v).readMem a = s.readMem a := rfl
@[simp] theorem State.readMem_advancePc (a : Word) : s.advancePc.readMem a = s.readMem a := rfl
@[simp] theorem State.readMem_setCC (a : Word) (v : Word) : (s.setCC v).readMem a = s.readMem a := rfl
@[simp] theorem State.readMem_writeResult (a : Word) (r : Reg) (v : Word) : (s.writeResult r v).readMem a = s.readMem a := rfl
@[simp] theorem State.readMem_emit (a : Word) (b : Byte) : (s.emit b).readMem a = s.readMem a := rfl
@[simp] theorem State.readMem_emitString (a : Word) (bs : List Byte) : (s.emitString bs).readMem a = s.readMem a := rfl
@[simp] theorem State.readMem_halt (a : Word) (k : HaltReason) : (s.halt k).readMem a = s.readMem a := rfl
@[simp] theorem State.readMem_raiseFault (a : Word) (c : Cause) : (s.raiseFault c).readMem a = s.readMem a := rfl
@[simp] theorem State.readMem_link (a : Word) : s.link.readMem a = s.readMem a := rfl
@[simp] theorem State.readMem_supply (a : Word) (bs : List Byte) : (s.supply bs).readMem a = s.readMem a := rfl
@[simp] theorem State.readMem_signalEnd (a : Word) : s.signalEnd.readMem a = s.readMem a := rfl

/-! ## Reset (10_state.md R36) -/

@[simp] theorem State.reset_pc : State.reset.pc = 0x3000 := rfl
@[simp] theorem State.reset_cond : State.reset.cond = 0x0002 := rfl
@[simp] theorem State.reset_run : State.reset.run = .running := rfl
@[simp] theorem State.reset_output : State.reset.output = [] := rfl
@[simp] theorem State.reset_mem : State.reset.mem = ⟨[]⟩ := rfl
@[simp] theorem State.reset_reg (r : Reg) : State.reset.reg r = 0x0000 := by revert r; decide

end Sys2Proof.Machine
end

