-- ==== Sys2Proof/Laws/Memory.lean ====
section
/-! SUPPORT. The laws of memory: a read after a write (20_memory.md R42), and that every memory operation keeps the
canonical form. The read laws hold of every list of cells, canonical or not. -/

namespace Sys2Proof.Machine

/-! ## Reading after writing -/

theorem Memory.lookup_eq_unlisted {cells : List WordCell} {a : Nat} (h : ∀ c ∈ cells, c.1 ≠ a) :
    Memory.lookup cells a = Memory.unlisted := by
  induction cells with
  | nil => rfl
  | cons c rest ih =>
    have hc : c.1 ≠ a := h c (by simp)
    simp [Memory.lookup, hc, ih fun d hd => h d (by simp [hd])]

theorem Memory.ne_of_mem_erase {cells : List WordCell} {a : Nat} {c : WordCell} (h : c ∈ Memory.erase cells a) :
    c.1 ≠ a := by
  simpa using (List.mem_filter.mp h).2

theorem Memory.mem_of_mem_erase {cells : List WordCell} {a : Nat} {c : WordCell} (h : c ∈ Memory.erase cells a) :
    c ∈ cells := (List.mem_filter.mp h).1

theorem Memory.lookup_erase (cells : List WordCell) (a b : Nat) :
    Memory.lookup (Memory.erase cells a) b = if a = b then Memory.unlisted else Memory.lookup cells b := by
  split
  · next h => exact Memory.lookup_eq_unlisted fun c hc => h ▸ Memory.ne_of_mem_erase hc
  · next h =>
    induction cells with
    | nil => rfl
    | cons c rest ih =>
      by_cases hc : c.1 = a
      · have : Memory.erase (c :: rest) a = Memory.erase rest a := by simp [Memory.erase, hc]
        rw [this, ih]
        simp [Memory.lookup, hc, h]
      · have : Memory.erase (c :: rest) a = c :: Memory.erase rest a := by simp [Memory.erase, hc]
        simp [this, Memory.lookup, ih]

theorem Memory.lookup_insert {cells : List WordCell} {a : Nat} (h : ∀ c ∈ cells, c.1 ≠ a) (v : Word) (b : Nat) :
    Memory.lookup (Memory.insert cells a v) b = if a = b then v else Memory.lookup cells b := by
  induction cells with
  | nil => simp [Memory.insert, Memory.lookup]
  | cons c rest ih =>
    have hc : c.1 ≠ a := h c (by simp)
    have ih := ih fun d hd => h d (by simp [hd])
    by_cases hlt : a < c.1
    · simp [Memory.insert, hlt, Memory.lookup]
    · by_cases hb : a = b
      · subst hb; simp [Memory.insert, hlt, Memory.lookup, hc, ih]
      · simp [Memory.insert, hlt, Memory.lookup, ih, hb]

/-- A read after a write: the word written at its address, the old word at every other (R42). -/
theorem Memory.read_write (m : Memory) (a v b : Word) : (m.write a v).read b = if a = b then v else m.read b := by
  have hab : a.toNat = b.toNat ↔ a = b := BitVec.toNat_inj
  unfold Memory.read Memory.write
  by_cases hv : v = Memory.unlisted
  · simp [hv, Memory.lookup_erase, hab]
  · simp only [hv, if_false, Memory.lookup_insert (fun _ hc => Memory.ne_of_mem_erase hc), hab, Memory.lookup_erase]
    split <;> rfl

@[simp] theorem State.readMem_writeMem (s : State) (a v b : Word) :
    (s.writeMem a v).readMem b = if a = b then v else s.readMem b := s.mem.read_write a v b

/-- With nothing listed every word is 0 (R42, 10_state.md R36). -/
@[simp] theorem Memory.read_empty (a : Word) : (Memory.mk []).read a = 0x0000 := rfl

@[simp] theorem State.readMem_reset (a : Word) : State.reset.readMem a = 0x0000 := rfl

/-! ## The canonical form -/

theorem Memory.wf_empty : (Memory.mk []).wf := by simp [Memory.wf]

theorem Memory.mem_insert {cells : List WordCell} {a : Nat} {v : Word} {c : WordCell} :
    c ∈ Memory.insert cells a v ↔ c = (a, v) ∨ c ∈ cells := by
  induction cells with
  | nil => simp [Memory.insert]
  | cons d rest ih =>
    by_cases h : a < d.1
    · simp [Memory.insert, h]
    · simp only [Memory.insert, h, if_false, List.mem_cons, ih]; tauto

theorem Memory.insert_pairwise {cells : List WordCell} {a : Nat} {v : Word} (h : ∀ c ∈ cells, c.1 ≠ a)
    (hs : cells.Pairwise fun c d => c.1 < d.1) : (Memory.insert cells a v).Pairwise fun c d => c.1 < d.1 := by
  induction cells with
  | nil => simp [Memory.insert]
  | cons c rest ih =>
    obtain ⟨hc, hrest⟩ := List.pairwise_cons.mp hs
    by_cases hlt : a < c.1
    · simp only [Memory.insert, hlt, if_true, List.pairwise_cons, List.mem_cons]
      refine ⟨?_, hc, hrest⟩
      rintro d (rfl | hd)
      · exact hlt
      · exact hlt.trans (hc d hd)
    · have hca : c.1 < a := by have := h c (by simp); omega
      simp only [Memory.insert, hlt, if_false, List.pairwise_cons]
      refine ⟨fun d hd => ?_, ih (fun d hd => h d (by simp [hd])) hrest⟩
      rcases Memory.mem_insert.mp hd with rfl | hd
      · exact hca
      · exact hc d hd

/-- A write keeps the canonical form. -/
theorem Memory.wf_write {m : Memory} (h : m.wf) (a v : Word) : (m.write a v).wf := by
  obtain ⟨hs, hv⟩ := h
  have he : (Memory.erase m.cells a.toNat).Pairwise fun c d => c.1 < d.1 := hs.sublist List.filter_sublist
  unfold Memory.write
  by_cases hz : v = Memory.unlisted
  · simp only [hz, if_true]
    exact ⟨he, fun c hc => hv c (Memory.mem_of_mem_erase hc)⟩
  · simp only [hz, if_false]
    refine ⟨Memory.insert_pairwise (fun _ hc => Memory.ne_of_mem_erase hc) he, fun c hc => ?_⟩
    rcases Memory.mem_insert.mp hc with rfl | hc
    · exact ⟨a.isLt, hz⟩
    · exact hv c (Memory.mem_of_mem_erase hc)

/-- Copying an image keeps it. -/
theorem Memory.wf_copyWords {m : Memory} (h : m.wf) (a : Word) (ws : List Word) : (copyWords m a ws).wf := by
  induction ws generalizing m a with
  | nil => exact h
  | cons w ws ih => exact ih (Memory.wf_write h a w) (a + 1)

/-- Loading an image keeps it. -/
theorem Memory.wf_loadImage {m m' : Memory} (h : m.wf) {image : Image} (hl : loadImage m image = .ok m') : m'.wf := by
  unfold loadImage at hl
  split at hl
  · cases hl
  · split at hl
    · cases hl
    · split at hl
      · cases hl
      · cases hl; exact Memory.wf_copyWords h _ _
  · cases hl

/-- Loading images keeps it. -/
theorem Memory.wf_loadImages {m m' : Memory} (h : m.wf) {images : List Image} (hl : loadImages m images = .ok m') :
    m'.wf := by
  induction images generalizing m with
  | nil => cases hl; exact h
  | cons image rest ih =>
    unfold loadImages at hl
    split at hl
    · next m₁ h₁ => exact ih (Memory.wf_loadImage h h₁) hl
    · cases hl

/-- Reset memory has it. -/
theorem State.reset_mem_wf : State.reset.mem.wf := Memory.wf_empty

end Sys2Proof.Machine
end

