-- ==== Sys2Proof/Laws/Ops.lean ====
section
/-! SUPPORT. One lemma per shared operation that says what it can do: SetCC, the input read, the branch, a step; and what an
instruction that completes leaves unchanged. -/

namespace Sys2Proof.Machine

/-! ## SetCC (10_state.md R27) -/

theorem condOf_eq_flagFor (v : Word) : condOf v = flagFor v := by
  have h15 : v.getLsbD 15 = decide (0x8000 ≤ v.toNat) := by
    rw [BitVec.getLsbD, Nat.testBit_eq_decide_div_mod_eq, decide_eq_decide]
    have := v.isLt
    omega
  have h0 : v = 0x0000 ↔ v.toNat = 0 := by rw [← BitVec.toNat_inj]; rfl
  simp only [condOf, flagFor, h15, h0, decide_eq_true_eq]
  rfl

theorem flagFor_legal (v : Word) : flagFor v = 0x0001 ∨ flagFor v = 0x0002 ∨ flagFor v = 0x0004 := by
  unfold flagFor; split
  · exact .inr (.inl rfl)
  · split
    · exact .inr (.inr rfl)
    · exact .inl rfl

theorem condOf_legal (v : Word) : condOf v = 0x0001 ∨ condOf v = 0x0002 ∨ condOf v = 0x0004 :=
  condOf_eq_flagFor v ▸ flagFor_legal v

/-- What writing a result does, whole. -/
theorem State.writeResult_spec (s : State) (dr : Reg) (v : Word) : WritesResult dr v s (s.writeResult dr v) :=
  ⟨by simp, by simp [condOf_eq_flagFor], fun r hr => by simp [Ne.symm hr], rfl, fun _ => rfl, rfl, rfl, rfl⟩

/-- What a store does, whole. -/
theorem State.writeMem_spec (s : State) (a v : Word) : StoresWord a v s (s.writeMem a v) :=
  ⟨by simp, fun b hb => by simp [Ne.symm hb], fun _ => rfl, rfl, rfl, rfl, rfl, rfl⟩

/-- What setting PC does, whole. -/
theorem State.setPc_spec (s : State) (a : Word) : JumpsTo a s (s.setPc a) :=
  ⟨rfl, fun _ => rfl, rfl, fun _ => rfl, rfl, rfl, rfl⟩

/-- What emitting bytes does, whole. -/
theorem State.emitString_spec (s : State) (bs : List Byte) : Emits bs s (s.emitString bs) :=
  ⟨rfl, fun _ => rfl, rfl, rfl, fun _ => rfl, rfl, rfl⟩

/-! ## Reading the input stream (10_state.md R33, 44_trap.md R141) -/

/-- A read takes the oldest byte, or is EOF and takes nothing, or has no answer. -/
theorem State.inByte_cases (s : State) :
    (∃ b rest, s.input.pending = b :: rest ∧ s.inByte = some (b, { s with input := { s.input with pending := rest } })) ∨
    (s.input.pending = [] ∧ s.input.ended = true ∧ s.inByte = some (0xFF, s)) ∨
    (s.input.pending = [] ∧ s.input.ended = false ∧ s.inByte = none) := by
  obtain ⟨regs, pc, cond, mem, run, ⟨pending, ended⟩, output⟩ := s
  cases pending with
  | cons b rest => exact .inl ⟨b, rest, rfl, rfl⟩
  | nil => cases ended with
    | true => exact .inr (.inl ⟨rfl, rfl, rfl⟩)
    | false => exact .inr (.inr ⟨rfl, rfl, rfl⟩)

/-- A read that answers changes the input stream only. -/
theorem State.inByte_frame {s t : State} {b : Byte} (h : s.inByte = some (b, t)) : t = { s with input := t.input } := by
  rcases s.inByte_cases with ⟨c, rest, -, h'⟩ | ⟨-, -, h'⟩ | ⟨-, -, h'⟩ <;> rw [h'] at h <;> cases h <;> rfl

/-- A read has an answer exactly when the host has supplied one. -/
theorem State.inByte_isSome_iff (s : State) : (∃ b t, s.inByte = some (b, t)) ↔ s.inputReady := by
  rcases s.inByte_cases with ⟨c, rest, hp, h⟩ | ⟨hp, he, h⟩ | ⟨hp, he, h⟩ <;>
    simp [State.inputReady, *]

/-! ## The branch (43_control.md R130) -/

theorem State.branch_cases (s : State) (conds : BitVec 3) (off : BitVec 9) :
    (conds.setWidth 16 &&& s.cond ≠ 0 ∧ s.branch conds off = s.setPc (pcRel9 s off)) ∨
    (conds.setWidth 16 &&& s.cond = 0 ∧ s.branch conds off = s) := by
  unfold State.branch
  by_cases h : conds.setWidth 16 &&& s.cond = 0
  · exact .inr ⟨h, if_neg (not_not.mpr h)⟩
  · exact .inl ⟨h, if_pos h⟩

/-! ## The string scans (44_trap.md R152, R154) -/

theorem putsBytes_succ (m : Memory) (n : Nat) (a : Word) :
    putsBytes m (n + 1) a = if m.read a = 0x0000 then some []
      else (putsBytes m n (a + 1)).map (lowByte (m.read a) :: ·) := by
  rw [putsBytes]
  split
  · rfl
  · cases putsBytes m n (a + 1) <;> rfl

theorem putspBytes_succ (m : Memory) (n : Nat) (a : Word) :
    putspBytes m (n + 1) a = if lowByte (m.read a) = 0x00 then some []
      else if highByte (m.read a) = 0x00 then some [lowByte (m.read a)]
      else (putspBytes m n (a + 1)).map (lowByte (m.read a) :: highByte (m.read a) :: ·) := by
  rw [putspBytes]
  split
  · rfl
  · split
    · rfl
    · cases putspBytes m n (a + 1) <;> rfl

/-! ## What an instruction that completes can do -/

/-- Every instruction that completes does one of these, by its kind: it writes a result with its flags, stores a word, only
moves PC, links and moves PC, reads a byte into R0, emits bytes, stops the run, or does nothing. -/
theorem exec_cases {i : Instr} {s t : State} (h : exec i s = .next t) :
    (setsCond i = true ∧ ∃ dr v, writeRegs i = [dr] ∧ t = s.writeResult dr v) ∨
    (setsCond i = false ∧ writeRegs i = [] ∧ ((∃ sr off, i = .st sr off ∨ i = .sti sr off) ∨
        ∃ sr b off, i = .str sr b off) ∧ ∃ a v, t = s.writeMem a v) ∨
    (setsCond i = false ∧ writeRegs i = [] ∧ ((∃ c off, i = .br c off) ∨ ∃ b, i = .jmp b) ∧ ∃ a, t = s.setPc a) ∨
    (setsCond i = false ∧ writeRegs i = [7] ∧ ((∃ off, i = .jsr off) ∨ ∃ b, i = .jsrr b) ∧ ∃ a, t = s.link.setPc a) ∨
    (setsCond i = false ∧ writeRegs i = [0] ∧ ∃ b s', (i = .trapGetc ∧ s.inByte = some (b, s') ∧ t = s'.setReg 0 (zext8 b) ∨
        i = .trapIn ∧ (s.emitString Config.inPrompt).inByte = some (b, s') ∧ t = (s'.emit b).setReg 0 (zext8 b))) ∨
    (setsCond i = false ∧ writeRegs i = [] ∧ (i = .trapOut ∨ i = .trapPuts ∨ i = .trapPutsp) ∧ ∃ bs, t = s.emitString bs) ∨
    (i = .sentinel ∧ t = s.halt .sentinel) ∨
    (i = .trapHalt ∧ t = (s.emitString Config.haltNotice).halt .trapHalt) ∨
    (∃ v, i = .trapInvalid v ∧ t = s.raiseFault (.invalidTrapVector v)) ∨
    ((i = .rti ∨ i = .res) ∧ t = s) := by
  cases i with
  | addReg | addImm | andReg | andImm | not | ld | ldi | ldr | lea => cases h; exact .inl ⟨rfl, _, _, rfl, rfl⟩
  | st sr off => cases h; exact .inr (.inl ⟨rfl, rfl, .inl ⟨sr, off, .inl rfl⟩, _, _, rfl⟩)
  | sti sr off => cases h; exact .inr (.inl ⟨rfl, rfl, .inl ⟨sr, off, .inr rfl⟩, _, _, rfl⟩)
  | str sr b off => cases h; exact .inr (.inl ⟨rfl, rfl, .inr ⟨sr, b, off, rfl⟩, _, _, rfl⟩)
  | br c off =>
    cases h
    refine .inr (.inr (.inl ⟨rfl, rfl, .inl ⟨c, off, rfl⟩, ?_⟩))
    rcases s.branch_cases c off with ⟨-, hb⟩ | ⟨-, hb⟩
    · exact ⟨_, hb⟩
    · exact ⟨s.pc, hb⟩
  | jmp b => cases h; exact .inr (.inr (.inl ⟨rfl, rfl, .inr ⟨b, rfl⟩, _, rfl⟩))
  | jsr off => cases h; exact .inr (.inr (.inr (.inl ⟨rfl, rfl, .inl ⟨off, rfl⟩, _, rfl⟩)))
  | jsrr b => cases h; exact .inr (.inr (.inr (.inl ⟨rfl, rfl, .inr ⟨b, rfl⟩, _, rfl⟩)))
  | trapGetc =>
    simp only [exec, execTrapGetc] at h
    split at h
    · next b s' hb => cases h; exact .inr (.inr (.inr (.inr (.inl ⟨rfl, rfl, b, s', .inl ⟨rfl, hb, rfl⟩⟩))))
    · cases h
  | trapIn =>
    simp only [exec, execTrapIn] at h
    split at h
    · next b s' hb => cases h; exact .inr (.inr (.inr (.inr (.inl ⟨rfl, rfl, b, s', .inr ⟨rfl, hb, rfl⟩⟩))))
    · cases h
  | trapOut => cases h; exact .inr (.inr (.inr (.inr (.inr (.inl ⟨rfl, rfl, .inl rfl, [_], rfl⟩)))))
  | trapPuts =>
    simp only [exec, execTrapPuts] at h
    split at h
    · cases h; exact .inr (.inr (.inr (.inr (.inr (.inl ⟨rfl, rfl, .inr (.inl rfl), _, rfl⟩)))))
    · cases h
  | trapPutsp =>
    simp only [exec, execTrapPutsp] at h
    split at h
    · cases h; exact .inr (.inr (.inr (.inr (.inr (.inl ⟨rfl, rfl, .inr (.inr rfl), _, rfl⟩)))))
    · cases h
  | sentinel => cases h; exact .inr (.inr (.inr (.inr (.inr (.inr (.inl ⟨rfl, rfl⟩))))))
  | trapHalt => cases h; exact .inr (.inr (.inr (.inr (.inr (.inr (.inr (.inl ⟨rfl, rfl⟩)))))))
  | trapInvalid v => cases h; exact .inr (.inr (.inr (.inr (.inr (.inr (.inr (.inr (.inl ⟨v, rfl, rfl⟩))))))))
  | rti => cases h; exact .inr (.inr (.inr (.inr (.inr (.inr (.inr (.inr (.inr ⟨.inl rfl, rfl⟩))))))))
  | res => cases h; exact .inr (.inr (.inr (.inr (.inr (.inr (.inr (.inr (.inr ⟨.inr rfl, rfl⟩))))))))

/-! ## A step (40_dispatch.md R90, 60_exceptions.md R164) -/

theorem stepWith_running {strict : Bool} {s : State} (h : s.run = .running) : stepWith strict s = cycle strict s := by
  unfold stepWith; rw [h]

theorem stepWith_stopped {strict : Bool} {s : State} (h : s.run ≠ .running) : stepWith strict s = .next s := by
  unfold stepWith
  split
  · next hr => exact absurd hr h
  · rfl
  · rfl

theorem step_running {s : State} (h : s.run = .running) : step s = exec (decodeWord s.fetch) s.advancePc :=
  stepWith_running h

theorem step_stopped {s : State} (h : s.run ≠ .running) : step s = .next s := stepWith_stopped h

/-- A step that answers is a completed cycle of a running core, or a stopped core left as it is. -/
theorem stepWith_cases {strict : Bool} {s t : State} (h : stepWith strict s = .next t) :
    (s.run = .running ∧ ∃ i, decode strict s.fetch = .ok i ∧ exec i s.advancePc = .next t) ∨
    (s.run ≠ .running ∧ t = s) := by
  by_cases hr : s.run = .running
  · rw [stepWith_running hr] at h
    unfold cycle at h
    split at h
    · next i hi => exact .inl ⟨hr, i, hi, h⟩
    · cases h
  · rw [stepWith_stopped hr] at h
    cases h
    exact .inr ⟨hr, rfl⟩

/-- The same of this hardware's step: every word decodes (30_encoding.md R77). -/
theorem step_cases {s t : State} (h : step s = .next t) :
    (s.run = .running ∧ exec (decodeWord s.fetch) s.advancePc = .next t) ∨ (s.run ≠ .running ∧ t = s) := by
  rcases stepWith_cases h with ⟨hr, i, hi, h⟩ | h
  · cases hi; exact .inl ⟨hr, h⟩
  · exact .inr h

end Sys2Proof.Machine
end

