-- ==== Sys2Proof/Laws/PerInstr.lean ====
section
/-! SUPPORT. Per-instruction families (LAWS.json): one lemma per constructor of Instr about its encoding. -/

namespace Sys2Proof

/-- The operation of an instruction (30_encoding.md R70). -/
def Instr.opcode : Instr → Opcode
  | .sentinel => .sentinel
  | .br _ _ => .sentinel
  | .addReg _ _ _ => .add
  | .addImm _ _ _ => .add
  | .ld _ _ => .ld
  | .st _ _ => .st
  | .jsrr _ => .jsr
  | .jsr _ => .jsr
  | .andReg _ _ _ => .and
  | .andImm _ _ _ => .and
  | .ldr _ _ _ => .ldr
  | .str _ _ _ => .str
  | .rti => .rti
  | .not _ _ => .not
  | .ldi _ _ => .ldi
  | .sti _ _ => .sti
  | .jmp _ => .jmp
  | .res => .res
  | .lea _ _ => .lea
  | .trapGetc => .trap
  | .trapOut => .trap
  | .trapPuts => .trap
  | .trapIn => .trap
  | .trapPutsp => .trap
  | .trapHalt => .trap
  | .trapInvalid _ => .trap

end Sys2Proof

namespace Sys2Proof.Laws.EncodedOpcode

/-- The word an instruction encodes to carries its opcode in bits 15:12 (R61, R70). -/
def Statement (i : Instr) : Prop := opcodeOf (encode i) = i.opcode

theorem sentinel : Statement .sentinel := rfl
theorem br (conds : BitVec 3) (off : BitVec 9) : Statement (.br conds off) := (congrArg Opcode.ofBits (field_pc9 _ _ _).1).trans (Opcode.ofBits_bits _)
theorem addReg (dr : Reg) (sr1 : Reg) (sr2 : Reg) : Statement (.addReg dr sr1 sr2) := (congrArg Opcode.ofBits (field_aluR _ _ _ _ _).1).trans (Opcode.ofBits_bits _)
theorem addImm (dr : Reg) (sr1 : Reg) (imm : BitVec 5) : Statement (.addImm dr sr1 imm) := (congrArg Opcode.ofBits (field_aluI _ _ _ _ _).1).trans (Opcode.ofBits_bits _)
theorem ld (dr : Reg) (off : BitVec 9) : Statement (.ld dr off) := (congrArg Opcode.ofBits (field_pc9 _ _ _).1).trans (Opcode.ofBits_bits _)
theorem st (sr : Reg) (off : BitVec 9) : Statement (.st sr off) := (congrArg Opcode.ofBits (field_pc9 _ _ _).1).trans (Opcode.ofBits_bits _)
theorem jsrr (b : Reg) : Statement (.jsrr b) := (congrArg Opcode.ofBits (field_base6 _ _ _ _).1).trans (Opcode.ofBits_bits _)
theorem jsr (off : BitVec 11) : Statement (.jsr off) := (congrArg Opcode.ofBits (field_pc11 _ _ _).1).trans (Opcode.ofBits_bits _)
theorem andReg (dr : Reg) (sr1 : Reg) (sr2 : Reg) : Statement (.andReg dr sr1 sr2) := (congrArg Opcode.ofBits (field_aluR _ _ _ _ _).1).trans (Opcode.ofBits_bits _)
theorem andImm (dr : Reg) (sr1 : Reg) (imm : BitVec 5) : Statement (.andImm dr sr1 imm) := (congrArg Opcode.ofBits (field_aluI _ _ _ _ _).1).trans (Opcode.ofBits_bits _)
theorem ldr (dr : Reg) (b : Reg) (off : BitVec 6) : Statement (.ldr dr b off) := (congrArg Opcode.ofBits (field_base6 _ _ _ _).1).trans (Opcode.ofBits_bits _)
theorem str (sr : Reg) (b : Reg) (off : BitVec 6) : Statement (.str sr b off) := (congrArg Opcode.ofBits (field_base6 _ _ _ _).1).trans (Opcode.ofBits_bits _)
theorem rti : Statement .rti := rfl
theorem not (dr : Reg) (sr1 : Reg) : Statement (.not dr sr1) := (congrArg Opcode.ofBits (field_base6 _ _ _ _).1).trans (Opcode.ofBits_bits _)
theorem ldi (dr : Reg) (off : BitVec 9) : Statement (.ldi dr off) := (congrArg Opcode.ofBits (field_pc9 _ _ _).1).trans (Opcode.ofBits_bits _)
theorem sti (sr : Reg) (off : BitVec 9) : Statement (.sti sr off) := (congrArg Opcode.ofBits (field_pc9 _ _ _).1).trans (Opcode.ofBits_bits _)
theorem jmp (b : Reg) : Statement (.jmp b) := (congrArg Opcode.ofBits (field_base6 _ _ _ _).1).trans (Opcode.ofBits_bits _)
theorem res : Statement .res := rfl
theorem lea (dr : Reg) (off : BitVec 9) : Statement (.lea dr off) := (congrArg Opcode.ofBits (field_pc9 _ _ _).1).trans (Opcode.ofBits_bits _)
theorem trapGetc : Statement .trapGetc := rfl
theorem trapOut : Statement .trapOut := rfl
theorem trapPuts : Statement .trapPuts := rfl
theorem trapIn : Statement .trapIn := rfl
theorem trapPutsp : Statement .trapPutsp := rfl
theorem trapHalt : Statement .trapHalt := rfl
theorem trapInvalid (v : BitVec 8) : Statement (.trapInvalid v) := (congrArg Opcode.ofBits (field_trap _ _ _).1).trans (Opcode.ofBits_bits _)

end Sys2Proof.Laws.EncodedOpcode

namespace Sys2Proof.Laws.CanonicalEncoding

/-- The word an instruction encodes to has canonical unread bits (30_encoding.md R65 to R72), so a decoder with
STRICT_UNUSED_BITS = true accepts it. -/
def Statement (i : Instr) : Prop := canonicalUnusedBits (encode i) = true

theorem sentinel : Statement .sentinel := rfl
theorem br (conds : BitVec 3) (off : BitVec 9) : Statement (.br conds off) := by
  rw [Statement, canonicalUnusedBits, show opcodeOf (encode (.br conds off)) = .sentinel from EncodedOpcode.br conds off]
theorem addReg (dr : Reg) (sr1 : Reg) (sr2 : Reg) : Statement (.addReg dr sr1 sr2) := by
  rw [Statement, canonicalUnusedBits, show opcodeOf (encode (.addReg dr sr1 sr2)) = .add from EncodedOpcode.addReg dr sr1 sr2]
  simp only [Bool.or_eq_true, beq_iff_eq]
  exact .inr (field_unused_aluR _ _ _ _)
theorem addImm (dr : Reg) (sr1 : Reg) (imm : BitVec 5) : Statement (.addImm dr sr1 imm) := by
  rw [Statement, canonicalUnusedBits, show opcodeOf (encode (.addImm dr sr1 imm)) = .add from EncodedOpcode.addImm dr sr1 imm]
  simp only [Bool.or_eq_true, beq_iff_eq]
  exact .inl ((fieldMode_eq _).trans (decide_eq_true (field_aluI _ _ _ _ _).2.2.2.1))
theorem ld (dr : Reg) (off : BitVec 9) : Statement (.ld dr off) := by
  rw [Statement, canonicalUnusedBits, show opcodeOf (encode (.ld dr off)) = .ld from EncodedOpcode.ld dr off]
theorem st (sr : Reg) (off : BitVec 9) : Statement (.st sr off) := by
  rw [Statement, canonicalUnusedBits, show opcodeOf (encode (.st sr off)) = .st from EncodedOpcode.st sr off]
theorem jsrr (b : Reg) : Statement (.jsrr b) := by
  rw [Statement, canonicalUnusedBits, show opcodeOf (encode (.jsrr b)) = .jsr from EncodedOpcode.jsrr b]
  simp only [Bool.or_eq_true, Bool.and_eq_true, beq_iff_eq]
  exact .inr ⟨field_unused_jsrr _ _ _, (field_base6 _ _ _ _).2.2.2⟩
theorem jsr (off : BitVec 11) : Statement (.jsr off) := by
  rw [Statement, canonicalUnusedBits, show opcodeOf (encode (.jsr off)) = .jsr from EncodedOpcode.jsr off]
  simp only [Bool.or_eq_true]
  exact .inl ((fieldL_eq _).trans (decide_eq_true (field_pc11 _ _ _).2.1))
theorem andReg (dr : Reg) (sr1 : Reg) (sr2 : Reg) : Statement (.andReg dr sr1 sr2) := by
  rw [Statement, canonicalUnusedBits, show opcodeOf (encode (.andReg dr sr1 sr2)) = .and from EncodedOpcode.andReg dr sr1 sr2]
  simp only [Bool.or_eq_true, beq_iff_eq]
  exact .inr (field_unused_aluR _ _ _ _)
theorem andImm (dr : Reg) (sr1 : Reg) (imm : BitVec 5) : Statement (.andImm dr sr1 imm) := by
  rw [Statement, canonicalUnusedBits, show opcodeOf (encode (.andImm dr sr1 imm)) = .and from EncodedOpcode.andImm dr sr1 imm]
  simp only [Bool.or_eq_true, beq_iff_eq]
  exact .inl ((fieldMode_eq _).trans (decide_eq_true (field_aluI _ _ _ _ _).2.2.2.1))
theorem ldr (dr : Reg) (b : Reg) (off : BitVec 6) : Statement (.ldr dr b off) := by
  rw [Statement, canonicalUnusedBits, show opcodeOf (encode (.ldr dr b off)) = .ldr from EncodedOpcode.ldr dr b off]
theorem str (sr : Reg) (b : Reg) (off : BitVec 6) : Statement (.str sr b off) := by
  rw [Statement, canonicalUnusedBits, show opcodeOf (encode (.str sr b off)) = .str from EncodedOpcode.str sr b off]
theorem rti : Statement .rti := rfl
theorem not (dr : Reg) (sr1 : Reg) : Statement (.not dr sr1) := by
  rw [Statement, canonicalUnusedBits, show opcodeOf (encode (.not dr sr1)) = .not from EncodedOpcode.not dr sr1]
  simp only [beq_iff_eq]
  exact (field_base6 _ _ _ _).2.2.2
theorem ldi (dr : Reg) (off : BitVec 9) : Statement (.ldi dr off) := by
  rw [Statement, canonicalUnusedBits, show opcodeOf (encode (.ldi dr off)) = .ldi from EncodedOpcode.ldi dr off]
theorem sti (sr : Reg) (off : BitVec 9) : Statement (.sti sr off) := by
  rw [Statement, canonicalUnusedBits, show opcodeOf (encode (.sti sr off)) = .sti from EncodedOpcode.sti sr off]
theorem jmp (b : Reg) : Statement (.jmp b) := by
  rw [Statement, canonicalUnusedBits, show opcodeOf (encode (.jmp b)) = .jmp from EncodedOpcode.jmp b]
  simp only [Bool.and_eq_true, beq_iff_eq]
  exact ⟨(field_base6 _ _ _ _).2.1, (field_base6 _ _ _ _).2.2.2⟩
theorem res : Statement .res := rfl
theorem lea (dr : Reg) (off : BitVec 9) : Statement (.lea dr off) := by
  rw [Statement, canonicalUnusedBits, show opcodeOf (encode (.lea dr off)) = .lea from EncodedOpcode.lea dr off]
theorem trapGetc : Statement .trapGetc := rfl
theorem trapOut : Statement .trapOut := rfl
theorem trapPuts : Statement .trapPuts := rfl
theorem trapIn : Statement .trapIn := rfl
theorem trapPutsp : Statement .trapPutsp := rfl
theorem trapHalt : Statement .trapHalt := rfl
theorem trapInvalid (v : BitVec 8) : Statement (.trapInvalid v) := by
  rw [Statement, canonicalUnusedBits, show opcodeOf (encode (.trapInvalid v)) = .trap from EncodedOpcode.trapInvalid v]
  simp only [beq_iff_eq]
  exact (field_trap _ _ _).2.1

end Sys2Proof.Laws.CanonicalEncoding
end

