-- ==== Sys2Proof/Laws/RegReset.lean ====
section
/-! SUPPORT. The tracked machine of REG_RESET (00_scope.md R6): what its record holds after an instruction, which read stops
it, and what a step of it can do. -/

namespace Sys2Proof.Machine

@[simp] theorem Tracked.record_core (t : Tracked) (i : Instr) (s : State) : (t.record i s).core = s := rfl
@[simp] theorem Tracked.record_condWritten (t : Tracked) (i : Instr) (s : State) :
    (t.record i s).condWritten = (t.condWritten || setsCond i) := rfl

@[simp] theorem Tracked.start_core (p : RegResetPolicy) (s : State) : (Tracked.start p s).core = s := rfl
@[simp] theorem Tracked.start_written (p : RegResetPolicy) (s : State) (r : Reg) :
    (Tracked.start p s).written.get r = (p == .zero) := by
  simp [Tracked.start, Vector.get_eq_getElem]
@[simp] theorem Tracked.start_condWritten (p : RegResetPolicy) (s : State) :
    (Tracked.start p s).condWritten = (p == .zero) := rfl

theorem get_set_true (ws : Vector Bool 8) (q r : Reg) : (ws.set q true).get r = (decide (q = r) || ws.get r) := by
  by_cases h : q = r
  · simp [Vector.get_eq_getElem, h]
  · have : q.val ≠ r.val := fun e => h (Fin.ext e)
    simp [Vector.get_eq_getElem, h, this]

/-- After an instruction the registers it writes hold a value, and every register that held one still does. -/
@[simp] theorem Tracked.record_written (t : Tracked) (i : Instr) (s : State) (r : Reg) :
    (t.record i s).written.get r = true ↔ r ∈ writeRegs i ∨ t.written.get r = true := by
  unfold Tracked.record
  generalize writeRegs i = rs
  generalize t.written = ws
  induction rs generalizing ws with
  | nil => simp
  | cons q rs ih =>
    rw [List.foldl_cons, ih, get_set_true]
    simp only [Bool.or_eq_true, decide_eq_true_eq, List.mem_cons]
    tauto

/-- The read that stops: the first register, in the order of the rule, that holds no value. -/
theorem Tracked.firstUnwritten_eq_some (t : Tracked) (rs : List Reg) (r : Reg) :
    t.firstUnwritten rs = some r ↔
      ∃ before after, rs = before ++ r :: after ∧ t.written.get r = false ∧ ∀ q ∈ before, t.written.get q = true := by
  rw [Tracked.firstUnwritten, List.find?_eq_some_iff_append]
  simp only [Bool.not_eq_true', Bool.not_not]
  exact ⟨fun ⟨hr, as, bs, h, ha⟩ => ⟨as, bs, h, hr, ha⟩, fun ⟨as, bs, h, hr, ha⟩ => ⟨hr, as, bs, h, ha⟩⟩

theorem Tracked.firstUnwritten_eq_none (t : Tracked) (rs : List Reg) :
    t.firstUnwritten rs = none ↔ ∀ r ∈ rs, t.written.get r = true := by
  simp [Tracked.firstUnwritten]

/-- What running an instruction under a record can do, whole. -/
theorem Tracked.exec_cases (i : Instr) (t : Tracked) (s : State) :
    (∃ r, t.firstUnwritten (readRegs i) = some r ∧ Tracked.exec i t s = .fault (.unwrittenRegister r)) ∨
    (t.firstUnwritten (readRegs i) = none ∧ readsCond i = true ∧ t.condWritten = false ∧
      Tracked.exec i t s = .fault .unwrittenCond) ∨
    (t.firstUnwritten (readRegs i) = none ∧ (readsCond i = true → t.condWritten = true) ∧
      ((∃ s', Machine.exec i s = .next s' ∧ Tracked.exec i t s = .next (t.record i s')) ∨
        (∃ f, Machine.exec i s = .fault f ∧ Tracked.exec i t s = .fault (.coreFault f)) ∨
        (∃ r, Machine.exec i s = .refused r ∧ Tracked.exec i t s = .refused r))) := by
  unfold Tracked.exec
  cases hr : t.firstUnwritten (readRegs i) with
  | some r => exact .inl ⟨r, rfl, rfl⟩
  | none =>
    cases hc : readsCond i && !t.condWritten with
    | true => simp_all
    | false =>
      refine .inr (.inr ⟨rfl, by simpa using hc, ?_⟩)
      cases Machine.exec i s with
      | next s' => exact .inl ⟨s', rfl, rfl⟩
      | fault f => exact .inr (.inl ⟨f, rfl, rfl⟩)
      | refused r => exact .inr (.inr ⟨r, rfl, rfl⟩)

theorem Tracked.stepWith_running {strict : Bool} {t : Tracked} (h : t.core.run = .running) :
    t.stepWith strict = t.cycle strict := by
  unfold Tracked.stepWith; rw [h]

theorem Tracked.stepWith_stopped {strict : Bool} {t : Tracked} (h : t.core.run ≠ .running) : t.stepWith strict = .next t := by
  unfold Tracked.stepWith
  split
  · next hr => exact absurd hr h
  · rfl
  · rfl

theorem Tracked.cycle_of_decode {strict : Bool} {t : Tracked} {i : Instr} (h : decode strict t.core.fetch = .ok i) :
    t.cycle strict = Tracked.exec i t t.core.advancePc := by
  unfold Tracked.cycle; rw [h]

theorem Tracked.cycle_of_error {strict : Bool} {t : Tracked} {w : Word}
    (h : decode strict t.core.fetch = .error (.nonCanonicalUnusedBits w)) :
    t.cycle strict = .refused (.nonCanonicalUnusedBits w) := by
  unfold Tracked.cycle; rw [h]

end Sys2Proof.Machine
end

