-- ==== Sys2Proof/Laws/Strings.lean ====
section
/-! SUPPORT. The string scans of PUTS and PUTSP (44_trap.md R152, R154): what they give when a terminator is among the words
looked at, and that they give nothing exactly when none is. -/

namespace Sys2Proof.Machine

/-! ## Successive addresses -/

@[simp] theorem wordAt_zero (a : Word) : wordAt a 0 = a := by simp [wordAt]

theorem wordAt_succ (a : Word) (i : Nat) : wordAt a (i + 1) = wordAt (a + 1) i := by
  apply BitVec.eq_of_toNat_eq
  simp only [wordAt, BitVec.toNat_add, BitVec.toNat_ofNat]
  have : (1 : Word).toNat = 1 := rfl
  omega

/-- Every address is within 65536 words of every other. -/
theorem exists_wordAt (a b : Word) : ∃ i < Config.memoryWords, wordAt a i = b := by
  refine ⟨(b - a).toNat, (b - a).isLt, ?_⟩
  apply BitVec.eq_of_toNat_eq
  simp only [wordAt, BitVec.toNat_add, BitVec.toNat_ofNat, BitVec.toNat_sub]
  have := a.isLt
  have := b.isLt
  omega

/-! ## PUTS -/

theorem putsBytes_eq_some {m : Memory} {n k : Nat} (hk : k < n) {a : Word} (hne : ∀ i < k, m.read (wordAt a i) ≠ 0x0000)
    (hz : m.read (wordAt a k) = 0x0000) :
    putsBytes m n a = some ((List.range k).map fun i => lowByte (m.read (wordAt a i))) := by
  induction k generalizing n a with
  | zero =>
    obtain ⟨n, rfl⟩ : ∃ p, n = p + 1 := ⟨n - 1, by omega⟩
    rw [putsBytes_succ, if_pos (by simpa using hz)]
    rfl
  | succ k ih =>
    obtain ⟨n, rfl⟩ : ∃ p, n = p + 1 := ⟨n - 1, by omega⟩
    have h0 : m.read a ≠ 0x0000 := by simpa using hne 0 (by omega)
    rw [putsBytes_succ, if_neg h0,
      ih (a := a + 1) (by omega) (fun i hi => by rw [← wordAt_succ]; exact hne (i + 1) (by omega))
        (by rw [← wordAt_succ]; exact hz)]
    simp [List.range_succ_eq_map, wordAt_succ, Function.comp_def]

theorem putsBytes_eq_none_iff {m : Memory} {n : Nat} {a : Word} :
    putsBytes m n a = none ↔ ∀ i < n, m.read (wordAt a i) ≠ 0x0000 := by
  constructor
  · intro h i hi
    by_contra hz
    have hex : ∃ i, m.read (wordAt a i) = 0x0000 := ⟨i, hz⟩
    have hle : Nat.find hex ≤ i := Nat.find_min' hex hz
    rw [putsBytes_eq_some (by omega) (fun j hj => Nat.find_min hex hj) (Nat.find_spec hex)] at h
    cases h
  · intro h
    induction n generalizing a with
    | zero => rfl
    | succ n ih =>
      rw [putsBytes_succ, if_neg (by simpa using h 0 (by omega)),
        ih fun i hi => by rw [← wordAt_succ]; exact h (i + 1) (by omega)]
      rfl

/-! ## PUTSP, by the byte -/

/-- The `j`-th byte of the packed string in a memory. -/
theorem packedByte_eq (s : State) (a : Word) (j : Nat) :
    packedByte s a j = if j % 2 = 0 then lowByte (s.mem.read (wordAt a (j / 2))) else highByte (s.mem.read (wordAt a (j / 2))) :=
  rfl

theorem packedByte_add_two (s : State) (a : Word) (j : Nat) : packedByte s a (j + 2) = packedByte s (a + 1) j := by
  rw [packedByte_eq, packedByte_eq, show (j + 2) / 2 = j / 2 + 1 by omega, show (j + 2) % 2 = j % 2 by omega, wordAt_succ]

theorem putspBytes_eq_some {s : State} {n k : Nat} (hk : k < 2 * n) {a : Word}
    (hne : ∀ j < k, packedByte s a j ≠ 0x00) (hz : packedByte s a k = 0x00) :
    putspBytes s.mem n a = some ((List.range k).map (packedByte s a)) := by
  induction n generalizing k a with
  | zero => omega
  | succ n ih =>
    have lo : packedByte s a 0 = lowByte (s.mem.read a) := by simp [packedByte_eq]
    have hi : packedByte s a 1 = highByte (s.mem.read a) := by simp [packedByte_eq]
    match k with
    | 0 => rw [putspBytes_succ, if_pos (by rw [← lo]; exact hz)]; rfl
    | 1 =>
      rw [putspBytes_succ, if_neg (by rw [← lo]; exact hne 0 (by omega)), if_pos (by rw [← hi]; exact hz)]
      simp [lo]
    | k + 2 =>
      rw [putspBytes_succ, if_neg (by rw [← lo]; exact hne 0 (by omega)),
        if_neg (by rw [← hi]; exact hne 1 (by omega)),
        ih (k := k) (a := a + 1) (by omega)
          (fun j hj => by rw [← packedByte_add_two]; exact hne (j + 2) (by omega))
          (by rw [← packedByte_add_two]; exact hz)]
      simp [List.range_succ_eq_map, packedByte_add_two, Function.comp_def, lo, hi]

theorem putspBytes_eq_none_iff {s : State} {n : Nat} {a : Word} :
    putspBytes s.mem n a = none ↔ ∀ j < 2 * n, packedByte s a j ≠ 0x00 := by
  constructor
  · intro h j hj
    by_contra hz
    have hex : ∃ j, packedByte s a j = 0x00 := ⟨j, hz⟩
    have hle : Nat.find hex ≤ j := Nat.find_min' hex hz
    rw [putspBytes_eq_some (by omega) (fun i hi => Nat.find_min hex hi) (Nat.find_spec hex)] at h
    cases h
  · intro h
    induction n generalizing a with
    | zero => rfl
    | succ n ih =>
      have lo : packedByte s a 0 = lowByte (s.mem.read a) := by simp [packedByte_eq]
      have hi : packedByte s a 1 = highByte (s.mem.read a) := by simp [packedByte_eq]
      rw [putspBytes_succ, if_neg (by rw [← lo]; exact h 0 (by omega)), if_neg (by rw [← hi]; exact h 1 (by omega)),
        ih fun j hj => by rw [← packedByte_add_two]; exact h (j + 2) (by omega)]
      rfl

end Sys2Proof.Machine
end

