-- ==== Sys2Proof/Tests/Slice0.lean ====
section
/-! SUPPORT. Tests of the model: the well-formedness checks, a word of every constructor decoded, the spec's vectors
(95_test_vectors.md; the name of a vector is the test's), and a witness for every statement that has hypotheses. Every
expected value is the spec's, none is the model's own answer. -/

namespace Sys2Proof.Tests

open Sys2Proof.Machine

/-! ## Well-formedness -/

theorem test_wf_refuses_a_valid_vector_as_invalid : (Instr.trapInvalid 0x20).wf = false ∧ (Instr.trapInvalid 0x25).wf = false := by
  decide
theorem test_wf_accepts_the_vectors_beside : (Instr.trapInvalid 0x1F).wf = true ∧ (Instr.trapInvalid 0x26).wf = true := by decide
theorem test_br_is_not_dispatched : (Instr.br 0b111 5).wf = true ∧ (Instr.br 0b111 5).dispatched = false := by decide

/-! ## Decoding: words written out field by field from 30_encoding.md R65 to R72 -/

theorem test_decode_sentinel : decodeWord 0b0000_111_000000101 = .sentinel := by decide
theorem test_decode_addReg : decodeWord 0b0001_001_010_0_00_011 = .addReg 1 2 3 := by decide
theorem test_decode_addImm : decodeWord 0b0001_001_010_1_10000 = .addImm 1 2 0b10000 := by decide
theorem test_decode_ld : decodeWord 0b0010_101_100000001 = .ld 5 0b100000001 := by decide
theorem test_decode_st : decodeWord 0b0011_110_011111110 = .st 6 0b011111110 := by decide
theorem test_decode_jsrr : decodeWord 0b0100_0_00_011_000000 = .jsrr 3 := by decide
theorem test_decode_jsr : decodeWord 0b0100_1_10000000011 = .jsr 0b10000000011 := by decide
theorem test_decode_andReg : decodeWord 0b0101_111_000_0_00_100 = .andReg 7 0 4 := by decide
theorem test_decode_andImm : decodeWord 0b0101_000_001_1_01111 = .andImm 0 1 0b01111 := by decide
theorem test_decode_ldr : decodeWord 0b0110_010_001_100000 = .ldr 2 1 0b100000 := by decide
theorem test_decode_str : decodeWord 0b0111_010_110_000001 = .str 2 6 0b000001 := by decide
theorem test_decode_rti : decodeWord 0b1000_000000000000 = .rti := by decide
theorem test_decode_not : decodeWord 0b1001_011_010_111111 = .not 3 2 := by decide
theorem test_decode_ldi : decodeWord 0b1010_010_000000101 = .ldi 2 5 := by decide
theorem test_decode_sti : decodeWord 0b1011_011_111111111 = .sti 3 0x1FF := by decide
theorem test_decode_jmp : decodeWord 0b1100_000_111_000000 = .jmp 7 := by decide
theorem test_decode_res : decodeWord 0b1101_000100100011 = .res := by decide
theorem test_decode_lea : decodeWord 0b1110_101_100000000 = .lea 5 0x100 := by decide
theorem test_decode_traps : [0xF020, 0xF021, 0xF022, 0xF023, 0xF024, 0xF025].map decodeWord =
    [.trapGetc, .trapOut, .trapPuts, .trapIn, .trapPutsp, .trapHalt] := by decide
theorem test_decode_trapInvalid : [0xF000, 0xF01F, 0xF026, 0xF0FF].map decodeWord =
    [.trapInvalid 0x00, .trapInvalid 0x1F, .trapInvalid 0x26, .trapInvalid 0xFF] := by decide
/-- BR's word (R64, R68), which the loop decodes to the sentinel. -/
theorem test_encode_br : encode (.br 0b010 0b111111101) = 0b0000_010_111111101 := by decide

/-- VB4, VE8, VE16, VF26: unread bits do not matter; STRICT_UNUSED_BITS = true refuses them (VB17). -/
theorem test_unread_bits_are_ignored :
    decodeWord 0x105A = decodeWord 0x1042 ∧ decodeWord 0xCE3F = .jmp 0 ∧ decodeWord 0x46FF = .jsrr 3 ∧
      decodeWord 0xFF25 = .trapHalt ∧ decodeWord 0x9040 = .not 0 1 := by decide
theorem test_strict_refuses_unread_bits :
    [0x105A, 0xCE3F, 0x46FF, 0xFF25, 0x9040].map (fun w => (decode true w).toOption) = [none, none, none, none, none] ∧
      (decode true 0x907F).toOption = some (.not 0 1) := by decide

theorem test_decodeTableWord : decodeTableWord 16 0x1283 = some (.addReg 1 2 3) ∧ decodeTableWord 16 0xF01F = some (.trapInvalid 0x1F) := by
  decide

/-! ## Extension, flags and the branch unit -/

/-- S1 and VA1 to VA9. -/
theorem test_sext : [sext 0x0F#5, sext 0x10#5, sext 0x1F#6, sext 0x20#6, sext 0x0FF#9, sext 0x100#9, sext 0x3FF#11, sext 0x400#11] =
    [0x000F, 0xFFF0, 0x001F, 0xFFE0, 0x00FF, 0xFF00, 0x03FF, 0xFC00] := by decide
theorem test_zext : zext8 0xFF = 0x00FF := by decide
/-- S2. -/
theorem test_flags : [0x0000, 0x0001, 0x7FFF, 0x8000, 0xFFFF].map condOf = [2, 1, 1, 4, 4] := by decide
/-- A memory word as characters (20_memory.md R43): VF16's first word. -/
theorem test_bytes_of_a_word : lowByte 0x6948 = 0x48 ∧ highByte 0x6948 = 0x69 := by decide

/-- A state of the tests: reset, with PC, registers and words of memory given. -/
def at_ (pc : Word) (regs : List (Reg × Word)) (words : List (Word × Word)) : State :=
  regs.foldl (fun s r => s.setReg r.1 r.2)
    { State.reset with pc := pc, mem := words.foldl (fun m w => m.write w.1 w.2) State.reset.mem }

/-- One step completes, in a state with a property. -/
def after (s : State) (p : State → Bool) : Bool :=
  match step s with
  | .next t => p t
  | _ => false

theorem exists_of_after {s : State} {p : State → Bool} (h : after s p = true) : ∃ t, step s = .next t ∧ p t = true := by
  unfold after at h
  split at h
  · next t ht => exact ⟨t, ht, h⟩
  · cases h

/-- S5a, S5b, S5c, VE1 to VE5, as (COND, PC, word, PC after). -/
theorem test_branch_unit :
    [(2, 0x3001, 0x0803, 0x3001), (2, 0x3001, 0x0403, 0x3004), (2, 0x3001, 0x05FD, 0x2FFE), (4, 0x3001, 0x0E05, 0x3006),
      (1, 0x3001, 0x0005, 0x3001), (1, 0x3001, 0x03FF, 0x3000), (1, 0x3001, 0x0C05, 0x3001), (2, 0x0000, 0x05FF, 0xFFFF)].all
      (fun v => (brUnit { State.reset with cond := v.1, pc := v.2.1 } v.2.2.1).pc == v.2.2.2) = true := by decide

/-! ## Steps: the spec's vectors -/

theorem test_S3a : after (at_ 0x3000 [(2, 0x7FFF), (3, 1)] [(0x3000, 0x1283)])
    (fun t => t.reg 1 == 0x8000 && t.cond == 4 && t.pc == 0x3001 && t.run == .running) = true := by decide
theorem test_VB1 : after (at_ 0x3000 [(1, 0xFFFF), (2, 1)] [(0x3000, 0x1042)]) (fun t => t.reg 0 == 0 && t.cond == 2) = true := by decide
theorem test_VB6 : after (at_ 0x3000 [(0, 0x0010)] [(0x3000, 0x1030)]) (fun t => t.reg 0 == 0 && t.cond == 2) = true := by decide
theorem test_VB7 : after (at_ 0x3000 [] [(0x3000, 0x103F)]) (fun t => t.reg 0 == 0xFFFF && t.cond == 4) = true := by decide
theorem test_S3c : after (at_ 0x3000 [(2, 0xFF00), (3, 0x0F0F)] [(0x3000, 0x5283)]) (fun t => t.reg 1 == 0x0F00 && t.cond == 1) = true := by
  decide
theorem test_VB13 : after (at_ 0x3000 [(2, 0xABCD)] [(0x3000, 0x5482)]) (fun t => t.reg 2 == 0xABCD && t.cond == 4) = true := by decide
theorem test_VB11 : after (at_ 0x3000 [(1, 0x1234)] [(0x3000, 0x5070)]) (fun t => t.reg 0 == 0x1230 && t.cond == 1) = true := by decide
theorem test_VB15 : after (at_ 0x3000 [] [(0x3000, 0x907F)]) (fun t => t.reg 0 == 0xFFFF && t.cond == 4) = true := by decide
theorem test_VC2 : after (at_ 0x0000 [] [(0x0000, 0x2300), (0xFF01, 0x8000)])
    (fun t => t.reg 1 == 0x8000 && t.cond == 4 && t.pc == 1) = true := by decide
theorem test_VC4 : after (at_ 0xFF00 [(7, 0xBEEF)] [(0xFF00, 0x3EFF)])
    (fun t => t.readMem 0x0000 == 0xBEEF && t.cond == 2 && t.pc == 0xFF01) = true := by decide
theorem test_S4 : after (at_ 0x2FFF [] [(0x2FFF, 0xA405), (0x3005, 0x4000), (0x4000, 0x1234)])
    (fun t => t.reg 2 == 0x1234 && t.cond == 1 && t.pc == 0x3000) = true := by decide
theorem test_VC7 : after (at_ 0x3000 [(0, 0x7777)] [(0x3000, 0xB1FF)]) (fun t => t.readMem 0xB1FF == 0x7777) = true := by decide
theorem test_VC8 : after (at_ 0x3000 [(3, 0xBEEF)] [(0x3000, 0xB602), (0x3003, 0x5000)])
    (fun t => t.readMem 0x5000 == 0xBEEF && t.cond == 2) = true := by decide
theorem test_VC10 : after (at_ 0x3000 [(6, 0xFFFF)] [(0x3000, 0x6381), (0x0000, 0x8001)])
    (fun t => t.reg 1 == 0x8001 && t.cond == 4) = true := by decide
theorem test_VC11 : after (at_ 0x3000 [(1, 0x4000)] [(0x3000, 0x6240), (0x4000, 0x1234)])
    (fun t => t.reg 1 == 0x1234 && t.cond == 1) = true := by decide
theorem test_VC13 : after (at_ 0x3000 [(6, 0x0010), (2, 0x1234)] [(0x3000, 0x75A0)]) (fun t => t.readMem 0xFFF0 == 0x1234 && t.cond == 2) = true := by
  decide
theorem test_VC15 : after (at_ 0xFF00 [] [(0xFF00, 0xE0FF)]) (fun t => t.reg 0 == 0 && t.cond == 2 && t.pc == 0xFF01) = true := by decide
theorem test_VC18 : after (at_ 0x3000 [] [(0x3000, 0xEB00)]) (fun t => t.reg 5 == 0x2F01 && t.cond == 1) = true := by decide
theorem test_VD2 : after (at_ 0x3000 [(1, 0x1111)] [(0x3000, 0x8FFF)]) (fun t => t == at_ 0x3001 [(1, 0x1111)] [(0x3000, 0x8FFF)]) = true := by
  decide
theorem test_VD4 : after (at_ 0x3000 [] [(0x3000, 0xD123)]) (fun t => t == at_ 0x3001 [] [(0x3000, 0xD123)]) = true := by decide
theorem test_VD6 : after (at_ 0x3000 [] [(0x3000, 0x0E05)]) (fun t => t.run == .halted .sentinel && t.pc == 0x3001 && t.output == []) = true := by
  decide
theorem test_VE9 : after (at_ 0x3000 [(7, 0x3005)] [(0x3000, 0xC1C0)]) (fun t => t.pc == 0x3005 && t.cond == 2) = true := by decide
theorem test_VE11 : after (at_ 0x3000 [] [(0x3000, 0x4C00)]) (fun t => t.reg 7 == 0x3001 && t.pc == 0x2C01) = true := by decide
theorem test_VE13 : after (at_ 0xFFFF [] [(0xFFFF, 0x4801)]) (fun t => t.reg 7 == 0x0000 && t.pc == 0x0001) = true := by decide
theorem test_VE14 : after (at_ 0x3000 [(3, 0x5000)] [(0x3000, 0x40C0)]) (fun t => t.reg 7 == 0x3001 && t.pc == 0x5000) = true := by decide
theorem test_VE15 : after (at_ 0x3000 [(7, 0x5000)] [(0x3000, 0x41C0)]) (fun t => t.reg 7 == 0x3001 && t.pc == 0x3001) = true := by decide
theorem test_VF1 : after ((at_ 0x3000 [] [(0x3000, 0xF020)]).supply [0x61])
    (fun t => t.reg 0 == 0x0061 && t.output == [] && t.input == ⟨[], false⟩ && t.cond == 2) = true := by decide
theorem test_VF2 : after (at_ 0x3000 [] [(0x3000, 0xF020)]).signalEnd (fun t => t.reg 0 == 0x00FF && t.output == []) = true := by decide
theorem test_VF6 : after (at_ 0x3000 [(0, 0x1241)] [(0x3000, 0xF021)]) (fun t => t.output == [0x41]) = true := by decide
theorem test_VF10 : after (at_ 0x3000 [(0, 0x4000)] [(0x3000, 0xF022), (0x4000, 0x4100), (0x4001, 0x0041)])
    (fun t => t.output == [0x00, 0x41] && t.reg 0 == 0x4000) = true := by decide
theorem test_VF11 : after (at_ 0x3000 [(0, 0xFFFF)] [(0x3000, 0xF022), (0xFFFF, 0x0041), (0x0000, 0x0042)])
    (fun t => t.output == [0x41, 0x42]) = true := by decide
/-- VF13 and VF14, for every IN_PROMPT. -/
theorem test_VF13 : ∃ t, step ((at_ 0x3000 [] [(0x3000, 0xF023)]).supply [0x78]) = .next t ∧ t.reg 0 = 0x0078 ∧
    t.output = Config.inPrompt ++ [0x78] := ⟨_, rfl, by rfl, rfl⟩
theorem test_VF14 : ∃ t, step (at_ 0x3000 [] [(0x3000, 0xF023)]).signalEnd = .next t ∧ t.reg 0 = 0x00FF ∧
    t.output = Config.inPrompt ++ [0xFF] := ⟨_, rfl, by rfl, rfl⟩
theorem test_VF16 : after (at_ 0x3000 [(0, 0x4000)] [(0x3000, 0xF024), (0x4000, 0x6948), (0x4001, 0x0021)])
    (fun t => t.output == [0x48, 0x69, 0x21] && t.reg 0 == 0x4000) = true := by decide
theorem test_VF17 : after (at_ 0x3000 [(0, 0x4000)] [(0x3000, 0xF024), (0x4000, 0x4100)]) (fun t => t.output == []) = true := by decide
/-- S8 and VF20, for every HALT_NOTICE. -/
theorem test_S8 : ∃ t, step (at_ 0x3000 [] [(0x3000, 0xF025)]) = .next t ∧ t.run = .halted .trapHalt ∧ t.pc = 0x3001 ∧
    t.output = Config.haltNotice ∧ t.exitIndication = some .success := ⟨_, rfl, rfl, rfl, rfl, rfl⟩
theorem test_VF22 : after (at_ 0x3000 [] [(0x3000, 0xF000)])
    (fun t => t.run == .faulted (.invalidTrapVector 0x00) && t.pc == 0x3001 && t.output == []) = true := by decide
theorem test_VF24 : after (at_ 0x3000 [] [(0x3000, 0xF026)])
    (fun t => t.run == .faulted (.invalidTrapVector 0x26) && t.exitIndication == some .failure) = true := by decide
/-- VH1. -/
theorem test_VH1 : State.reset.pc = 0x3000 ∧ State.reset.cond = 2 ∧ (∀ r, State.reset.reg r = 0) ∧ State.reset.run = .running ∧
    State.reset.output = [] := by decide
/-- VH2, under both values of REG_RESET. -/
theorem test_VH2_unwritten : (Tracked.start .unwritten (at_ 0x3000 [] [(0x3000, 0x1000)])).step = .fault (.unwrittenRegister 0) := by rfl
theorem test_VH2_zero : ∃ t, (Tracked.start .zero (at_ 0x3000 [] [(0x3000, 0x1000)])).step = .next t ∧ t.core.reg 0 = 0 ∧ t.core.cond = 2 :=
  ⟨_, rfl, by rfl, by rfl⟩

/-! ## The loader -/

/-- VG1, VG2, VG4, VG6, VG7. -/
theorem test_load_errors :
    [[], [0x30], [0x30, 0x00, 0x00], [0xFF, 0xFF, 0x12, 0x34, 0x56, 0x78], [0xFF, 0xFF, 0x00, 0x01, 0x00]].map
      (fun image => (loadImage State.reset.mem (some image))) =
    [.error .tooShort, .error .tooShort, .error .oddLength, .error .overflow, .error .oddLength] := by rfl
/-- S7, with C8. -/
theorem test_S7 : loadImage State.reset.mem (some [0x30, 0x00, 0x00, 0x01, 0x00, 0x02, 0x00, 0x03]) =
    .ok ⟨[(0x3000, 1), (0x3001, 2), (0x3002, 3)]⟩ := by rfl
/-- VG5 and VG8. -/
theorem test_VG5 : loadImage State.reset.mem (some [0xFF, 0xFF, 0x12, 0x34]) = .ok ⟨[(0xFFFF, 0x1234)]⟩ := by rfl
theorem test_VG8 : loadImages State.reset.mem [some [0x30, 0x00, 0x00, 0x01, 0x00, 0x02], some [0x30, 0x01, 0x00, 0x09]] =
    .ok ⟨[(0x3000, 1), (0x3001, 9)]⟩ := by rfl
/-- VG9. -/
theorem test_VG9 : boot [some [0x30, 0x00, 0xF0, 0x25], some [0x30]] ⟨[], false⟩ = .error .tooShort := by rfl
/-- An image word 0x0000 over an earlier word leaves nothing listed (20_memory.md R42). -/
theorem test_writing_zero_unlists : ((Memory.mk [(0x3000, 1)]).write 0x3000 0x0000) = ⟨[]⟩ := by rfl
theorem test_error_codes : [LoadError.unreadable, .oddLength, .overflow, .tooShort].map LoadError.code = [2, 3, 4, 5] ∧
    (Cause.invalidTrapVector 0x26).code = 1 := by decide

/-! ## Witnesses: for every statement with hypotheses, values that meet them together. Where a statement has several clauses,
one for each, at a boundary of its range. -/

theorem witness_DecodeOfEncodeIsTheInstruction :
    [Instr.addImm 7 0 0x1F, .jsr 0x400, .trapInvalid 0x1F, .trapInvalid 0x26, .trapInvalid 0xFF].all
      (fun i => i.wf && i.dispatched) = true := by decide

/-- Both sides of the equivalence, and neither: 0x105A and 0x1042 differ in unread bits, 0x1042 and 0x1062 in the mode. -/
theorem witness_WordsDecodeAlikeExactlyWhenReadBitsAgree :
    decode false 0x105A = decode false 0x1042 ∧ ((0x105A : Word) ^^^ 0x1042) &&& ~~~(unusedMask 0x105A) = 0 ∧
      ((0x1042 : Word) ^^^ 0x1062) &&& ~~~(unusedMask 0x1042) ≠ 0 := by
  refine ⟨?_, ?_, ?_⟩
  · rfl
  · decide
  · decide

theorem witness_StrictDecodingAcceptsOnlyCanonicalWords :
    decode true 0x907F = .ok (.not 0 1) ∧ encode (.not 0 1) = 0x907F ∧ decode true 0x8FFF = .ok .rti ∧ encode .rti ≠ 0x8FFF ∧
      encode (.not 0 1) ≠ 0x9040 := by
  refine ⟨rfl, rfl, rfl, ?_, ?_⟩ <;> decide

/-- One word for each of the 25 clauses, by its opcode, its bit 5, its bit 11 or its vector. -/
theorem witness_FieldsAreReadWhereTheFormatsPutThem :
    ([0x0FFF, 0x1042, 0x107F, 0x2FFF, 0x3FFF, 0x4800, 0x47FF, 0x5042, 0x507F, 0x6FFF, 0x7FFF, 0x8FFF, 0x9FFF, 0xAFFF, 0xBFFF,
        0xCFFF, 0xDFFF, 0xEFFF] : List Nat).map (fun w => w / 2 ^ 12) = [0, 1, 1, 2, 3, 4, 4, 5, 5, 6, 7, 8, 9, 10, 11, 12, 13, 14] ∧
      0x1042 / 2 ^ 5 % 2 = 0 ∧ 0x107F / 2 ^ 5 % 2 = 1 ∧ 0x4800 / 2 ^ 11 % 2 = 1 ∧ 0x47FF / 2 ^ 11 % 2 = 0 ∧
      0x5042 / 2 ^ 5 % 2 = 0 ∧ 0x507F / 2 ^ 5 % 2 = 1 ∧
      ([0xF020, 0xF021, 0xF022, 0xF023, 0xF024, 0xF025, 0xFF1F, 0xF026] : List Nat).map (fun w => (w / 2 ^ 12, w % 2 ^ 8)) =
        [(15, 0x20), (15, 0x21), (15, 0x22), (15, 0x23), (15, 0x24), (15, 0x25), (15, 0x1F), (15, 0x26)] := by decide

theorem witness_SignExtensionIsTheOrFormula :
    (sext 1#1).toNat = 0xFFFF ∧ (sext 0x8000#16).toNat = 0x8000 ∧ (sext 0x0F#5).toNat = 0x000F := by decide

theorem witness_CanonicalMemoryIsItsWords :
    (Memory.mk [(0, 1), (0xFFFF, 2)]).wf ∧ ((Memory.mk [(0xFFFF, 2)]).write 0 1).wf ∧
      ∀ a, (Memory.mk [(0, 1), (0xFFFF, 2)]).read a = ((Memory.mk [(0xFFFF, 2)]).write 0 1).read a :=
  ⟨by decide, by decide, fun _ => rfl⟩

theorem witness_ReservedOpcodesOnlyAdvancePc :
    [at_ 0xFFFF [] [(0xFFFF, 0x8000)], at_ 0 [] [(0, 0x8FFF)], at_ 0 [] [(0, 0xD000)], at_ 0 [] [(0, 0xDFFF)]].map
      (fun s => (s.run, s.fetch.toNat / 2 ^ 12)) = [(.running, 8), (.running, 8), (.running, 13), (.running, 13)] := by decide

/-- The three clauses of GETC and IN. -/
theorem witness_GetcReadsOneByteOrTheEndOrBlocks :
    (State.reset.supply [0xFF]).input.pending = [0xFF] ∧ State.reset.signalEnd.input = ⟨[], true⟩ ∧ State.reset.input = ⟨[], false⟩ := by
  decide
theorem witness_InPromptsReadsAndEchoes :
    (State.reset.supply [0x00, 0x01]).input.pending = [0x00, 0x01] ∧ State.reset.signalEnd.input = ⟨[], true⟩ ∧
      State.reset.input = ⟨[], false⟩ := by decide

/-- An empty string, and one that wraps (VF11). -/
theorem witness_PutsEmitsTheStringUpToTheZeroWord :
    State.reset.readMem (wordAt (State.reset.reg 0) 0) = 0x0000 ∧
      (let s := at_ 0x3000 [(0, 0xFFFF)] [(0xFFFF, 0x0041), (0x0000, 0x4200)]
       (∀ i < 2, s.readMem (wordAt (s.reg 0) i) ≠ 0x0000) ∧ s.readMem (wordAt (s.reg 0) 2) = 0x0000) := by decide

/-- A null in the low byte (VF19) and one in the high byte (VF18), and an empty string (VF17). -/
theorem witness_PutspEmitsThePackedBytesUpToTheNull :
    (let s := at_ 0x3000 [(0, 0x4000)] [(0x4000, 0x6948)]
     (∀ j < 2, packedByte s (s.reg 0) j ≠ 0x00) ∧ packedByte s (s.reg 0) 2 = 0x00) ∧
    (let s := at_ 0x3000 [(0, 0x4000)] [(0x4000, 0x0041)]
     (∀ j < 1, packedByte s (s.reg 0) j ≠ 0x00) ∧ packedByte s (s.reg 0) 1 = 0x00) ∧
    (let s := at_ 0x3000 [(0, 0x4000)] [(0x4000, 0x4100)]
     packedByte s (s.reg 0) 0 = 0x00) := by decide

/-- Memory with one word everywhere. -/
def filled (v : Word) (n : Nat) : Memory := ⟨(List.range n).map fun a => (a, v)⟩

theorem lookup_filled (v : Word) (n a : Nat) (h : a < n) : Memory.lookup (filled v n).cells a = v := by
  have key : ∀ l : List Nat, a ∈ l → Memory.lookup (l.map fun b => (b, v)) a = v := by
    intro l hl
    induction l with
    | nil => cases hl
    | cons b l ih =>
      simp only [List.map_cons, Memory.lookup]
      split
      · rfl
      · next hne => exact ih ((List.mem_cons.mp hl).resolve_left fun h => hne h.symm)
  exact key _ (List.mem_range.mpr h)

theorem read_filled (v a : Word) : (filled v Config.memoryWords).read a = v := lookup_filled v _ _ a.isLt

theorem witness_StringTrapsHangExactlyWithoutATerminator :
    (∀ a, (filled 0x0100 Config.memoryWords).read a ≠ 0x0000) ∧
      (∀ a, ((filled 0x0101 Config.memoryWords).read a).toNat % 256 ≠ 0 ∧
        ((filled 0x0101 Config.memoryWords).read a).toNat / 256 ≠ 0) := by
  refine ⟨fun a => ?_, fun a => ?_⟩ <;> rw [read_filled] <;> decide

/-- Both clauses: GETC at the top of memory, and 0x0FFF. -/
theorem witness_StepRunsTheDecodedInstruction :
    (at_ 0xFFFF [] [(0xFFFF, 0xF020)]).run = .running ∧ decode false ((at_ 0xFFFF [] [(0xFFFF, 0xF020)]).mem.read 0xFFFF) = .ok .trapGetc ∧
      ((at_ 0xFFFF [] [(0xFFFF, 0x0FFF)]).mem.read 0xFFFF).toNat / 2 ^ 12 = 0 := ⟨rfl, rfl, rfl⟩

/-- Both clauses, by VB15 and VB17. -/
theorem witness_StrictStepRunsOrRefuses :
    decode true ((at_ 0x3000 [] [(0x3000, 0x907F)]).mem.read 0x3000) = .ok (.not 0 1) ∧
      decode true ((at_ 0x3000 [] [(0x3000, 0x9040)]).mem.read 0x3000) = .error (.nonCanonicalUnusedBits 0x9040) := ⟨rfl, rfl⟩

theorem witness_InstructionsCompleteExactlyWhenTheSpecLetsThem :
    completes .trapGetc (State.reset.supply [0]) ∧ ¬ completes .trapGetc State.reset ∧ completes .trapPuts State.reset ∧
      ¬ completes .trapPuts { State.reset with mem := filled 0x0100 Config.memoryWords } := by
  refine ⟨.inl (by decide), ?_, ⟨0, rfl⟩, ?_⟩
  · rintro (h | h) <;> exact absurd h (by decide)
  · rintro ⟨a, h⟩
    rw [State.readMem, read_filled] at h
    exact absurd h (by decide)

theorem witness_StoppedCoreNeverChanges :
    (State.reset.halt .sentinel).run ≠ .running ∧ (State.reset.raiseFault (.invalidTrapVector 0x26)).run ≠ .running := by decide

/-- The vectors at both ends of both ranges (VF22 to VF25). -/
theorem witness_OnlyAnInvalidVectorFaults :
    [(0xF000, 0x00), (0xF01F, 0x1F), (0xF026, 0x26), (0xFFFF, 0xFF)].all (fun v => after (at_ 0 [] [(0, v.1)])
      fun t => t.run == .faulted (.invalidTrapVector v.2)) = true := by decide

theorem witness_EveryBranchWordHaltsTheCore :
    (at_ 0xFFFF [] [(0xFFFF, 0x0FFF)]).run = .running ∧ (at_ 0xFFFF [] [(0xFFFF, 0x0FFF)]).fetch.toNat < 0x1000 := by decide

/-- The instruction completes, and changes the register named. -/
def changes (i : Instr) (s : State) (r : Reg) : Bool :=
  match exec i s with
  | .next t => t.reg r != s.reg r
  | _ => false

theorem witness_OnlyNamedWritersChangeRegisters :
    (let s := (at_ 0x3001 [(1, 1)] [(0x3001, 2), (2, 3), (1, 4)]).supply [5]
     [Instr.addReg 0 1 1, .andReg 0 1 1, .addImm 0 1 0, .andImm 0 1 1, .not 0 1, .ld 0 0, .ldi 0 0, .lea 0 0, .ldr 0 1 0, .trapGetc,
       .trapIn].all (fun i => changes i s 0) && [Instr.jsr 0, .jsrr 1].all (fun i => changes i s 7)) = true := by decide

theorem witness_ExactlyTheSevenSetCond :
    (∃ t, exec (.lea 7 0) State.reset = .next t ∧ t.cond ≠ State.reset.cond) ∧ (∃ t, exec (.st 0 0) State.reset = .next t) :=
  ⟨⟨_, rfl, by decide⟩, ⟨_, rfl⟩⟩

theorem witness_OnlyJumpsAndCallsMovePc :
    [0x0000, 0x3FFF, 0x5000, 0xBFFF, 0xD000, 0xF021].all (fun w => after (at_ 0xFFFF [] [(0xFFFF, w)]) fun _ =>
      w.toNat / 2 ^ 12 != 4 && w.toNat / 2 ^ 12 != 12) = true := by decide

theorem witness_OnlyTheTrapsUseTheConsole :
    (∃ t, exec .trapGetc (State.reset.supply [1]) = .next t ∧ t.input ≠ (State.reset.supply [1]).input) ∧
      (∃ t, exec .trapOut State.reset = .next t ∧ t.output ≠ State.reset.output) :=
  ⟨⟨_, rfl, by decide⟩, ⟨_, rfl, by decide⟩⟩

/-- Every arm of the statement completes somewhere. -/
theorem witness_AccessesAreThoseOfTheTable :
    [Instr.ld 0 0, .ldr 0 0 0, .ldi 0 0, .st 0 0, .str 0 0 0, .sti 0 0, .trapPuts, .trapPutsp, .lea 0 0].all (fun i =>
      match exec i State.reset with
      | .next _ => true
      | _ => false) = true := by decide

/-- A running state and a stopped one; the arms complete as in the statement before. -/
theorem witness_AccessesComeInOrderAtTheirAddresses :
    State.reset.run = .running ∧ (State.reset.halt .trapHalt).run ≠ .running ∧
      [Instr.ld 0 0, .ldr 0 0 0, .ldi 0 0, .st 0 0, .str 0 0 0, .sti 0 0, .trapPuts, .trapPutsp, .lea 0 0].all (fun i =>
        match exec i (at_ 0xFFFF [(0, 0xFFFF)] [(0xFFFF, 0x0141)]) with
        | .next _ => true
        | _ => false) = true := by decide

/-- A store, and an address beside its word. -/
theorem witness_StepWritesOnlyListedWords :
    (∃ t, step (at_ 0x3000 [(0, 7)] [(0x3000, 0x3000)]) = .next t) ∧
      Access.write 0x3002 ∉ cycleAccesses (at_ 0x3000 [(0, 7)] [(0x3000, 0x3000)]) ∧
      Access.write 0x3001 ∈ cycleAccesses (at_ 0x3000 [(0, 7)] [(0x3000, 0x3000)]) :=
  ⟨⟨_, rfl⟩, by decide, by decide⟩

/-- LDI, and a memory that agrees at its fetch and its two reads and differs elsewhere. -/
theorem witness_StepDependsOnlyOnListedWords :
    (let s := at_ 0x3000 [] [(0x3000, 0xA000), (0x3001, 5), (5, 6)]
     after s (fun _ => true) = true ∧ (cycleAccesses s).filterMap Access.readAddr = [0x3000, 0x3001, 5] ∧
       ((cycleAccesses s).filterMap Access.readAddr).all
         (fun a => (Memory.mk [(5, 6), (9, 9), (0x3000, 0xA000), (0x3001, 5)]).read a == s.readMem a) = true) :=
  ⟨by decide, by decide, by decide⟩

/-- ST, STI and STR, each to the next word (the first with PC at its top) and to its own word. -/
theorem witness_StoresAreFetchedByTheNextCycle :
    (let s := at_ 0xFFFF [] [(0xFFFF, 0x3400)]
     s.run = .running ∧ decodeWord s.fetch = .st 2 0 ∧ s.pc + 1 + sext 0#9 = s.pc + 1) ∧
    (let s := at_ 0x3000 [] [(0x3000, 0x35FF)]
     decodeWord s.fetch = .st 2 0x1FF ∧ s.pc + 1 + sext 0x1FF#9 = s.pc) ∧
    (let s := at_ 0x3000 [] [(0x3000, 0xB402), (0x3003, 0x3001)]
     decodeWord s.fetch = .sti 2 2 ∧ s.readMem (s.pc + 1 + sext 2#9) = s.pc + 1) ∧
    (let s := at_ 0x3000 [] [(0x3000, 0xB402), (0x3003, 0x3000)]
     decodeWord s.fetch = .sti 2 2 ∧ s.readMem (s.pc + 1 + sext 2#9) = s.pc) ∧
    (let s := at_ 0x3000 [(1, 0x3021)] [(0x3000, 0x7460)]
     decodeWord s.fetch = .str 2 1 0x20 ∧ s.reg 1 + sext 0x20#6 = s.pc + 1) ∧
    (let s := at_ 0x3000 [(1, 0x3020)] [(0x3000, 0x7460)]
     decodeWord s.fetch = .str 2 1 0x20 ∧ s.reg 1 + sext 0x20#6 = s.pc) := by decide

/-- VF5 and VF15. -/
theorem witness_BlockedCoreCompletesWhenTheHostAnswers :
    step (at_ 0x3000 [] [(0x3000, 0xF020)]) = .fault (.blockedOnInput []) ∧
      step (at_ 0x3000 [] [(0x3000, 0xF023)]) = .fault (.blockedOnInput Config.inPrompt) := ⟨rfl, rfl⟩

/-- A boot that fails and one that does not. -/
theorem witness_ExitIndicationFollowsTheRunState :
    bootExit (boot [none] ⟨[], false⟩) = some .failure ∧ bootExit (boot [] ⟨[], false⟩) = none ∧
      (State.reset.halt .sentinel).exitIndication = some .success ∧
      (State.reset.raiseFault (.invalidTrapVector 0)).exitIndication = some .failure := by decide

/-- An image whose last word is at 0xFFFF (VG5), and one of no words. -/
theorem witness_ValidImageIsCopiedVerbatim :
    loadImage State.reset.mem (some [0xFF, 0xFF, 0x12, 0x34]) = .ok ⟨[(0xFFFF, 0x1234)]⟩ ∧
      ([0x12, 0x34] : List Byte)[2 * 0]? = some 0x12 ∧ ([0x12, 0x34] : List Byte)[2 * 0 + 1]? = some 0x34 ∧
      loadImage State.reset.mem (some [0xFF, 0xFF]) = .ok ⟨[]⟩ := ⟨rfl, rfl, rfl, rfl⟩

/-- The clauses that have hypotheses: VG2, VG7, VG6, VG5. -/
theorem witness_LoadErrorsAreCheckedInOrder :
    ([0x30] : List Byte).length < 2 ∧ ([0x00, 0x01, 0x00] : List Byte).length % 2 = 1 ∧
      ([0x12, 0x34, 0x56, 0x78] : List Byte).length % 2 = 0 ∧
      65536 < (0xFF#8).toNat * 256 + (0xFF#8).toNat + ([0x12, 0x34, 0x56, 0x78] : List Byte).length / 2 ∧
      ([0x12, 0x34] : List Byte).length % 2 = 0 ∧
      (0xFF#8).toNat * 256 + (0xFF#8).toNat + ([0x12, 0x34] : List Byte).length / 2 ≤ 65536 := by decide

/-- VG9 and VG8. -/
theorem witness_ImagesLoadInOrderOrTheFirstFailureStops :
    ∃ s, boot [some [0x30, 0x00, 0xF0, 0x25]] ⟨[], false⟩ = .ok s ∧ loadImage s.mem (some [0x30]) = .error .tooShort ∧
      loadImage s.mem (some [0x30, 0x00, 0x00, 0x09]) = .ok ⟨[(0x3000, 9)]⟩ := ⟨_, rfl, rfl, rfl⟩

theorem witness_BootAlwaysStartsAtTheFixedPc :
    ∃ s, boot [some [0x40, 0x00, 0xF0, 0x25]] ⟨[1], true⟩ = .ok s := ⟨_, rfl⟩

theorem witness_StepKeepsTheInvariant :
    (at_ 0x3000 [(0, 7)] [(0x3000, 0x3000)]).Inv ∧ (∃ t, stepWith false (at_ 0x3000 [(0, 7)] [(0x3000, 0x3000)]) = .next t) ∧
      ∃ t, stepWith true (at_ 0x3000 [(0, 7)] [(0x3000, 0x3000)]) = .next t := ⟨by decide, ⟨_, rfl⟩, ⟨_, rfl⟩⟩

/-- Each way of reaching a state: a boot, an answer of the host, a step, the end of input. -/
theorem witness_EveryReachableStateIsLegal :
    ∃ s t, boot [some [0x30, 0x00, 0xF0, 0x20]] ⟨[], false⟩ = .ok s ∧ step (s.supply [0x61]) = .next t ∧ Reachable t.signalEnd :=
  have ⟨t, ht, _⟩ := exists_of_after (s := (at_ 0x3000 [] [(0x3000, 0xF020)]).supply [0x61]) (p := fun _ => true) (by decide)
  ⟨at_ 0x3000 [] [(0x3000, 0xF020)], t, rfl, ht, .signalEnd _ (.step _ _ (.supply _ _ (.boot [some [0x30, 0x00, 0xF0, 0x20]] ⟨[], false⟩ _ rfl)) ht)⟩

/-- Two starts under `unwritten` that differ in R5 and in COND. -/
theorem witness_UnwrittenRegistersNeverMatter :
    (let t := Tracked.start .unwritten (at_ 0x3000 [] [(0x3000, 0xE000)])
     let u := Tracked.start .unwritten (Machine.State.setCC (at_ 0x3000 [(5, 9)] [(0x3000, 0xE000)]) 1)
     t.written = u.written ∧ t.condWritten = u.condWritten ∧ (∀ r, t.written.get r = true → t.core.reg r = u.core.reg r) ∧
       (t.condWritten = true → t.core.cond = u.core.cond) ∧
       ({ t.core with regs := u.core.regs, cond := u.core.cond } : State) = u.core ∧ t.core ≠ u.core) := by decide

/-- One word of every instruction that reads a register, with the first register it reads: at a start under `unwritten` the
step names that one. STR's is its base (42_load_store.md R116), and AND R2, R2, #0 reads R2. -/
theorem witness_UnwrittenPolicyFaultsOnTheFirstRead :
    [(0x1042, 1), (0x1060, 1), (0x3400, 2), (0x40C0, 3), (0x5042, 1), (0x54A0, 2), (0x6240, 1), (0x75A0, 6), (0x907F, 1),
        (0xB602, 3), (0xC080, 2), (0xF021, 0), (0xF022, 0), (0xF024, 0)].all (fun v =>
      match (Tracked.start .unwritten (at_ 0x3000 [] [(0x3000, v.1)])).stepWith true with
      | .fault (.unwrittenRegister r) => r == (v.2 : Reg)
      | _ => false) = true := by decide

/-- A second source that alone holds no value is named; an instruction that reads none, JSRR R7 among them, completes. -/
theorem witness_UnwrittenPolicy_second_source_and_no_source :
    (let t : Tracked := ⟨at_ 0x3000 [] [(0x3000, 0x1042)], (Vector.replicate 8 false).set 1 true, false⟩
     t.step = .fault (.unwrittenRegister 2)) ∧
    [0x2000, 0x41C0, 0x4800, 0x8000, 0xA000, 0xD000, 0xE000].all (fun w =>
      match (Tracked.start .unwritten (at_ 0x3000 [] [(0x3000, w)])).step with
      | .next _ => true
      | _ => false) = true := ⟨rfl, by decide⟩

/-- BR under `unwritten`, and a non-canonical word (VB17) with both parameters at their other value. -/
theorem witness_UnwrittenPolicy_cond_and_strict :
    Tracked.exec (.br 7 0) (Tracked.start .unwritten State.reset) State.reset = .fault .unwrittenCond ∧
      (Tracked.start .unwritten (at_ 0x3000 [] [(0x3000, 0x9040)])).stepWith true = .refused (.nonCanonicalUnusedBits 0x9040) ∧
      (Tracked.start .unwritten (at_ 0x3000 [] [(0x3000, 0x9040)])).stepWith false = .fault (.unwrittenRegister 1) := ⟨rfl, rfl, rfl⟩

end Sys2Proof.Tests
end

/-! Proofs of the statements of 00_scope.md. First the reads and writes of an instruction as a relation between two states
that agree on some registers only (10_state.md R22), then the tracked machine of REG_RESET (R6), then sign extension (R9). -/

namespace Sys2Proof.Machine

/-! ## Two outcomes that match -/

/-- Two steps with the same outcome: both complete, in states related by `R`, or both stop for the same reason. -/
def OutcomesMatch {σ φ ρ : Type} (R : σ → σ → Prop) (x y : Host.Outcome σ φ ρ) : Prop :=
  (∃ a b, x = .next a ∧ y = .next b ∧ R a b) ∨ (∃ f, x = .fault f ∧ y = .fault f) ∨ ∃ r, x = .refused r ∧ y = .refused r

section Matching

variable {σ φ ρ : Type} {R : σ → σ → Prop}

theorem OutcomesMatch.next {a b : σ} (h : R a b) : OutcomesMatch (φ := φ) (ρ := ρ) R (.next a) (.next b) :=
  .inl ⟨a, b, rfl, rfl, h⟩

theorem OutcomesMatch.fault (f : φ) : OutcomesMatch (ρ := ρ) R (.fault f) (.fault f) := .inr (.inl ⟨f, rfl, rfl⟩)

theorem OutcomesMatch.refused (r : ρ) : OutcomesMatch (φ := φ) R (.refused r) (.refused r) := .inr (.inr ⟨r, rfl, rfl⟩)

end Matching

/-! ## Two states that agree on what is known -/

/-- `a` and `b` agree on the registers in `K`, on COND if `C`, and on everything that is neither a register nor COND. -/
structure AgreesOn (K : Reg → Prop) (C : Prop) (a b : State) : Prop where
  reg : ∀ r, K r → a.reg r = b.reg r
  cond : C → a.cond = b.cond
  rest : { a with regs := b.regs, cond := b.cond } = b

namespace AgreesOn

variable {K : Reg → Prop} {C : Prop} {a b : State}

/-! What two states that agree read alike. -/

theorem pc_eq (h : AgreesOn K C a b) : a.pc = b.pc := (congrArg State.pc h.rest :)
theorem mem_eq (h : AgreesOn K C a b) : a.mem = b.mem := (congrArg State.mem h.rest :)
theorem run_eq (h : AgreesOn K C a b) : a.run = b.run := (congrArg State.run h.rest :)
theorem input_eq (h : AgreesOn K C a b) : a.input = b.input := (congrArg State.input h.rest :)

theorem readMem_eq (h : AgreesOn K C a b) {x y : Word} (hx : x = y) : a.readMem x = b.readMem y :=
  congrArg₂ Memory.read h.mem_eq hx
theorem fetch_eq (h : AgreesOn K C a b) : a.fetch = b.fetch := h.readMem_eq h.pc_eq
theorem pcRel9_eq (h : AgreesOn K C a b) (off : BitVec 9) : pcRel9 a off = pcRel9 b off := congrArg (· + sext off) h.pc_eq
theorem pcRel11_eq (h : AgreesOn K C a b) (off : BitVec 11) : pcRel11 a off = pcRel11 b off :=
  congrArg (· + sext off) h.pc_eq
theorem indirect9_eq (h : AgreesOn K C a b) (off : BitVec 9) : indirect9 a off = indirect9 b off :=
  h.readMem_eq (h.pcRel9_eq off)

/-! What keeps or extends the agreement. -/

theorem mono {K' : Reg → Prop} {C' : Prop} (h : AgreesOn K C a b) (hK : ∀ r, K' r → K r) (hC : C' → C) :
    AgreesOn K' C' a b :=
  ⟨fun r hr => h.reg r (hK r hr), fun hc => h.cond (hC hc), h.rest⟩

/-- A change of state that neither reads nor writes registers and COND keeps the agreement. -/
theorem map (h : AgreesOn K C a b) (f : State → State)
    (hf : ∀ (s : State) regs cond, f { s with regs := regs, cond := cond } = { f s with regs := regs, cond := cond }) :
    AgreesOn K C (f a) (f b) := by
  have hregs (s : State) : (f s).regs = s.regs := (congrArg State.regs (hf s s.regs s.cond) :)
  have hcond (s : State) : (f s).cond = s.cond := (congrArg State.cond (hf s s.regs s.cond) :)
  refine ⟨fun r hr => ?_, fun hc => ?_, ?_⟩
  · simpa only [State.reg, hregs] using h.reg r hr
  · simpa only [hcond] using h.cond hc
  · rw [hregs, hcond, ← hf, h.rest]

theorem setPc (h : AgreesOn K C a b) {v w : Word} (hv : v = w) : AgreesOn K C (a.setPc v) (b.setPc w) :=
  hv ▸ h.map (·.setPc v) fun _ _ _ => rfl
theorem advancePc (h : AgreesOn K C a b) : AgreesOn K C a.advancePc b.advancePc := h.setPc (congrArg (· + 1) h.pc_eq)
theorem writeMem (h : AgreesOn K C a b) {x y v w : Word} (hx : x = y) (hv : v = w) :
    AgreesOn K C (a.writeMem x v) (b.writeMem y w) :=
  hx ▸ hv ▸ h.map (·.writeMem x v) fun _ _ _ => rfl
theorem emitString (h : AgreesOn K C a b) (bs : List Byte) : AgreesOn K C (a.emitString bs) (b.emitString bs) :=
  h.map (·.emitString bs) fun _ _ _ => rfl
theorem halt (h : AgreesOn K C a b) (k : HaltReason) : AgreesOn K C (a.halt k) (b.halt k) :=
  h.map (·.halt k) fun _ _ _ => rfl
theorem raiseFault (h : AgreesOn K C a b) (c : Cause) : AgreesOn K C (a.raiseFault c) (b.raiseFault c) :=
  h.map (·.raiseFault c) fun _ _ _ => rfl

/-- Two states that agree read the same answer from the input stream, and agree after it. -/
theorem inByte (h : AgreesOn K C a b) :
    (a.inByte = none ∧ b.inByte = none) ∨
      ∃ x a' b', a.inByte = some (x, a') ∧ b.inByte = some (x, b') ∧ AgreesOn K C a' b' := by
  have hin (rest : InStream) : AgreesOn K C { a with input := rest } { b with input := rest } :=
    h.map (fun s => { s with input := rest }) fun _ _ _ => rfl
  unfold State.inByte
  rw [h.input_eq]
  rcases b.input.readByte with _ | ⟨_ | x, rest⟩
  · exact .inl ⟨rfl, rfl⟩
  · exact .inr ⟨_, _, _, rfl, rfl, hin rest⟩
  · exact .inr ⟨_, _, _, rfl, rfl, hin rest⟩

/-- Where COND is known, BR is taken in both states or in neither. -/
theorem branch (h : AgreesOn K C a b) (hC : C) (conds : BitVec 3) (off : BitVec 9) :
    AgreesOn K C (a.branch conds off) (b.branch conds off) := by
  rcases a.branch_cases conds off with ⟨hta, ha⟩ | ⟨hta, ha⟩ <;>
    rcases b.branch_cases conds off with ⟨htb, hb⟩ | ⟨htb, hb⟩ <;> rw [h.cond hC] at hta <;> rw [ha, hb]
  · exact h.setPc (h.pcRel9_eq off)
  · exact absurd htb hta
  · exact absurd hta htb
  · exact h

/-! The three ways an instruction records what it wrote: nothing, a register, a register and COND. -/

theorem of_no_write (h : AgreesOn K C a b) : AgreesOn (fun q => q ∈ [] ∨ K q) (C ∨ false = true) a b :=
  h.mono (fun _ hr => hr.resolve_left List.not_mem_nil) fun hc => hc.resolve_right Bool.false_ne_true

theorem setReg (h : AgreesOn K C a b) (r : Reg) {v w : Word} (hv : v = w) :
    AgreesOn (fun q => q ∈ [r] ∨ K q) (C ∨ false = true) (a.setReg r v) (b.setReg r w) := by
  subst hv
  refine ⟨fun q hq => ?_, fun hc => h.cond (hc.resolve_right Bool.false_ne_true), congrArg (·.setReg r v) h.rest⟩
  simp only [State.reg_setReg]
  split
  · rfl
  · next hne => exact h.reg q (hq.resolve_left fun hmem => hne (List.mem_singleton.mp hmem).symm)

theorem link (h : AgreesOn K C a b) : AgreesOn (fun q => q ∈ [7] ∨ K q) (C ∨ false = true) a.link b.link :=
  h.setReg 7 h.pc_eq

theorem writeResult (h : AgreesOn K C a b) (r : Reg) {v w : Word} (hv : v = w) :
    AgreesOn (fun q => q ∈ [r] ∨ K q) (C ∨ true = true) (a.writeResult r v) (b.writeResult r w) := by
  subst hv
  have hr := h.setReg r (Eq.refl v)
  exact ⟨hr.reg, fun _ => rfl, congrArg (·.setCC v) hr.rest⟩

end AgreesOn

/-- Two states that agree on the registers an instruction reads, and on COND if it reads COND, take it alike: the outcomes
match, and then the states agree on what they agreed on and on what the instruction has written. -/
theorem exec_agrees {K : Reg → Prop} {C : Prop} {a b : State} (i : Instr) (h : AgreesOn K C a b)
    (hreads : ∀ r ∈ readRegs i, K r) (hcond : readsCond i = true → C) :
    OutcomesMatch (AgreesOn (fun r => r ∈ writeRegs i ∨ K r) (C ∨ setsCond i = true)) (exec i a) (exec i b) := by
  have hr : ∀ r ∈ readRegs i, a.reg r = b.reg r := fun r hm => h.reg r (hreads r hm)
  cases i with
  | addReg dr sr1 sr2 => exact .next (h.writeResult dr (congrArg₂ (· + ·) (hr sr1 (.head _)) (hr sr2 (.tail _ (.head _)))))
  | addImm dr sr1 imm => exact .next (h.writeResult dr (congrArg (· + sext imm) (hr sr1 (.head _))))
  | andReg dr sr1 sr2 => exact .next (h.writeResult dr (congrArg₂ (· &&& ·) (hr sr1 (.head _)) (hr sr2 (.tail _ (.head _)))))
  | andImm dr sr1 imm => exact .next (h.writeResult dr (congrArg (· &&& sext imm) (hr sr1 (.head _))))
  | not dr sr1 => exact .next (h.writeResult dr (congrArg (~~~ ·) (hr sr1 (.head _))))
  | ld dr off => exact .next (h.writeResult dr (h.readMem_eq (h.pcRel9_eq off)))
  | ldi dr off => exact .next (h.writeResult dr (h.readMem_eq (h.indirect9_eq off)))
  | ldr dr base off => exact .next (h.writeResult dr (h.readMem_eq (congrArg (· + sext off) (hr base (.head _)))))
  | lea dr off => exact .next (h.writeResult dr (h.pcRel9_eq off))
  | st sr off => exact .next (h.writeMem (h.pcRel9_eq off) (hr sr (.head _))).of_no_write
  | sti sr off => exact .next (h.writeMem (h.indirect9_eq off) (hr sr (.head _))).of_no_write
  | str sr base off =>
    exact .next (h.writeMem (congrArg (· + sext off) (hr base (.head _))) (hr sr (.tail _ (.head _)))).of_no_write
  | br conds off => exact .next (h.branch (hcond rfl) conds off).of_no_write
  | jmp base => exact .next (h.setPc (hr base (.head _))).of_no_write
  | jsr off => exact .next (h.link.setPc (h.link.pcRel11_eq off))
  | jsrr base =>
    have hknown : base ∈ [7] ∨ K base := by
      by_cases h7 : base = 7
      · exact .inl (List.mem_singleton.mpr h7)
      · exact .inr (hreads base (by simp [readRegs, h7]))
    exact .next (h.link.setPc (h.link.reg base hknown))
  | trapGetc =>
    rcases h.inByte with ⟨ha, hb⟩ | ⟨x, a', b', ha, hb, h'⟩ <;> simp only [exec, execTrapGetc, ha, hb]
    · exact .fault _
    · exact .next (h'.setReg 0 rfl)
  | trapIn =>
    rcases (h.emitString Config.inPrompt).inByte with ⟨ha, hb⟩ | ⟨x, a', b', ha, hb, h'⟩ <;>
      simp only [exec, execTrapIn, ha, hb]
    · exact .fault _
    · exact .next ((h'.emitString [x]).setReg 0 rfl)
  | trapOut =>
    have h0 : lowByte (a.reg 0) = lowByte (b.reg 0) := congrArg lowByte (hr 0 (.head _))
    simp only [exec, execTrapOut, h0]
    exact .next (h.emitString [_]).of_no_write
  | trapPuts =>
    simp only [exec, execTrapPuts, h.mem_eq, hr 0 (.head _)]
    cases putsBytes b.mem Config.memoryWords (b.reg 0) with
    | some bs => exact .next (h.emitString bs).of_no_write
    | none => exact .fault _
  | trapPutsp =>
    simp only [exec, execTrapPutsp, h.mem_eq, hr 0 (.head _)]
    cases putspBytes b.mem Config.memoryWords (b.reg 0) with
    | some bs => exact .next (h.emitString bs).of_no_write
    | none => exact .fault _
  | sentinel => exact .next (h.halt _).of_no_write
  | trapHalt => exact .next ((h.emitString _).halt _).of_no_write
  | trapInvalid v => exact .next (h.raiseFault _).of_no_write
  | rti | res => exact .next h.of_no_write

/-! ## The tracked machine -/

namespace Tracked

/-- Two tracked cores with the same record, whose states differ only in registers, and COND, that hold no value. -/
structure AgreesWith (t u : Tracked) : Prop where
  written : t.written = u.written
  condWritten : t.condWritten = u.condWritten
  core : AgreesOn (fun r => t.written.get r = true) (t.condWritten = true) t.core u.core

/-- Recording an instruction keeps the agreement when the states after it agree on what it has written too. -/
theorem AgreesWith.record {t u : Tracked} (h : t.AgreesWith u) {i : Instr} {a b : State}
    (hab : AgreesOn (fun r => r ∈ writeRegs i ∨ t.written.get r = true) (t.condWritten = true ∨ setsCond i = true) a b) :
    (t.record i a).AgreesWith (u.record i b) where
  written := congrArg (List.foldl _ · _) h.written
  condWritten := congrArg (· || setsCond i) h.condWritten
  core := hab.mono (fun r => (t.record_written i a r).mp) (by simp)

/-- An instruction under two records that agree stops at the same unwritten register, or runs alike. -/
theorem AgreesWith.exec {t u : Tracked} (h : t.AgreesWith u) (i : Instr) {a b : State}
    (hab : AgreesOn (fun r => t.written.get r = true) (t.condWritten = true) a b) :
    OutcomesMatch AgreesWith (Tracked.exec i t a) (Tracked.exec i u b) := by
  have hfirst : u.firstUnwritten (readRegs i) = t.firstUnwritten (readRegs i) := by
    rw [firstUnwritten, firstUnwritten, h.written]
  unfold Tracked.exec
  rw [hfirst, ← h.condWritten]
  cases hr : t.firstUnwritten (readRegs i) with
  | some r => exact .fault _
  | none =>
    cases hc : readsCond i && !t.condWritten with
    | true => exact .fault _
    | false =>
      have hmatch := exec_agrees i hab ((t.firstUnwritten_eq_none _).mp hr) (by simpa using hc)
      rcases hmatch with ⟨a', b', ha, hb, hab'⟩ | ⟨f, ha, hb⟩ | ⟨r, ha, hb⟩ <;> rw [ha, hb]
      · exact .next (h.record hab')
      · exact .fault _
      · exact .refused _

/-- Two tracked cores that agree take the same step. -/
theorem AgreesWith.stepWith {t u : Tracked} (h : t.AgreesWith u) (strict : Bool) :
    OutcomesMatch AgreesWith (t.stepWith strict) (u.stepWith strict) := by
  by_cases hrun : t.core.run = .running
  · rw [stepWith_running hrun, stepWith_running (h.core.run_eq ▸ hrun)]
    cases hd : decode strict t.core.fetch with
    | ok i =>
      rw [cycle_of_decode hd, cycle_of_decode (h.core.fetch_eq ▸ hd)]
      exact h.exec i h.core.advancePc
    | error e =>
      cases e
      rw [cycle_of_error hd, cycle_of_error (h.core.fetch_eq ▸ hd)]
      exact .refused _
  · rw [stepWith_stopped hrun, stepWith_stopped (h.core.run_eq ▸ hrun)]
    exact .next h

end Tracked

/-- Settles O55: two tracked cores that agree take the same step, by what every instruction reads and writes. -/
theorem unwrittenRegistersNeverMatter : Obligations.UnwrittenRegistersNeverMatter := by
  intro strict t u hwritten hcondWritten hreg hcond hrest
  have hagree : t.AgreesWith u := ⟨hwritten, hcondWritten, hreg, hcond, hrest⟩
  rcases hagree.stepWith strict with ⟨t', u', ht, hu, hw, hc, hr, hcd, hrs⟩ | hfault | hrefused
  · exact .inl ⟨t', u', ht, hu, hw, hc, hr, hcd, hrs⟩
  · exact .inr (.inl hfault)
  · exact .inr (.inr hrefused)

/-! ## REG_RESET = zero -/

theorem cycle_of_decode {strict : Bool} {s : State} {i : Instr} (h : decode strict s.fetch = .ok i) :
    cycle strict s = exec i s.advancePc := by
  unfold cycle; rw [h]

theorem cycle_of_error {strict : Bool} {s : State} {w : Word}
    (h : decode strict s.fetch = .error (.nonCanonicalUnusedBits w)) : cycle strict s = .refused (.nonCanonicalUnusedBits w) := by
  unfold cycle; rw [h]

namespace Tracked

/-- Where every register holds a value, recording an instruction changes nothing but the core. -/
theorem record_start_zero (s s' : State) (i : Instr) : (start .zero s).record i s' = start .zero s' := by
  have hwritten : ((start .zero s).record i s').written = (start .zero s').written := by
    refine Vector.ext fun r hr => ?_
    have hheld := (record_written (start .zero s) i s' ⟨r, hr⟩).mpr (.inr (start_written .zero s ⟨r, hr⟩))
    exact hheld.trans (start_written .zero s' ⟨r, hr⟩).symm
  exact congrArg (Tracked.mk s' · true) hwritten

/-- A tracked outcome that is a core's outcome, with every register holding a value. -/
def FollowsCore (x : Host.Outcome State Fault Refusal) (y : Host.Outcome Tracked TrackedFault Refusal) : Prop :=
  (∃ s, x = .next s ∧ y = .next (start .zero s)) ∨ (∃ f, x = .fault f ∧ y = .fault (.coreFault f)) ∨
    ∃ r, x = .refused r ∧ y = .refused r

/-- Where every register holds a value, no read stops an instruction. -/
theorem exec_start_zero (i : Instr) (s a : State) :
    FollowsCore (Machine.exec i a) (Tracked.exec i (start .zero s) a) := by
  have hfirst : (start .zero s).firstUnwritten (readRegs i) = none :=
    (firstUnwritten_eq_none _ _).mpr fun r _ => start_written .zero s r
  rcases exec_cases i (start .zero s) a with ⟨r, hr, -⟩ | ⟨-, -, hc, -⟩ | ⟨-, -, hrun⟩
  · rw [hfirst] at hr; cases hr
  · cases hc
  · simp only [record_start_zero] at hrun
    exact hrun

/-- Where every register holds a value, a step is the core's. -/
theorem stepWith_start_zero (strict : Bool) (s : State) :
    FollowsCore (Machine.stepWith strict s) ((start .zero s).stepWith strict) := by
  by_cases hrun : s.run = .running
  · rw [Machine.stepWith_running hrun, stepWith_running hrun]
    cases hd : decode strict s.fetch with
    | ok i =>
      rw [Machine.cycle_of_decode hd, cycle_of_decode (t := start .zero s) hd]
      exact exec_start_zero i s s.advancePc
    | error e =>
      cases e
      rw [Machine.cycle_of_error hd, cycle_of_error (t := start .zero s) hd]
      exact .inr (.inr ⟨_, rfl, rfl⟩)
  · rw [Machine.stepWith_stopped hrun, stepWith_stopped hrun]
    exact .inl ⟨s, rfl, rfl⟩

end Tracked

/-- Settles O56: under `zero` no read stops a cycle and its record stays full, so the tracked cycle is the core's. -/
theorem zeroPolicyIsTheCore : Obligations.ZeroPolicyIsTheCore := by
  intro strict s
  rcases Tracked.stepWith_start_zero strict s with ⟨s', hs, ht⟩ | ⟨f, hs, ht⟩ | ⟨r, hs, ht⟩ <;>
    rw [hs] <;> exact ht

/-! ## REG_RESET = unwritten -/

/-- Only BR reads COND (10_state.md R29), and it reads no register. -/
theorem readsCond_iff (i : Instr) : readsCond i = true ↔ ∃ conds off, i = .br conds off := by
  constructor
  · intro h
    cases i with
    | br conds off => exact ⟨conds, off, rfl⟩
    | _ => cases h
  · rintro ⟨conds, off, rfl⟩
    rfl

namespace Tracked

/-- An instruction stops at the register its reads stop at first. -/
theorem exec_eq_unwrittenRegister_iff (i : Instr) (t : Tracked) (s : State) (r : Reg) :
    Tracked.exec i t s = .fault (.unwrittenRegister r) ↔ t.firstUnwritten (readRegs i) = some r := by
  rcases exec_cases i t s with ⟨q, hq, he⟩ | ⟨hq, -, -, he⟩ | ⟨hq, -, ⟨_, -, he⟩ | ⟨_, -, he⟩ | ⟨_, -, he⟩⟩ <;>
    simp [he, hq]

/-- An instruction stops at COND exactly when it is BR and COND holds no value: BR has no register to stop at before. -/
theorem exec_eq_unwrittenCond_iff (i : Instr) (t : Tracked) (s : State) :
    Tracked.exec i t s = .fault .unwrittenCond ↔ (∃ conds off, i = .br conds off) ∧ t.condWritten = false := by
  rw [← readsCond_iff]
  rcases exec_cases i t s with ⟨q, hq, he⟩ | ⟨-, hc, hw, he⟩ | ⟨-, hc, ⟨_, -, he⟩ | ⟨_, -, he⟩ | ⟨_, -, he⟩⟩
  · have hnot : readsCond i ≠ true := fun hb => by
      obtain ⟨conds, off, rfl⟩ := (readsCond_iff i).mp hb
      cases hq
    simp [he, hnot]
  · simp [he, hc, hw]
  all_goals simpa [he] using hc

/-- A running tracked core whose word decodes stops at the first unwritten register of its instruction. -/
theorem stepWith_eq_unwrittenRegister_iff {strict : Bool} {t : Tracked} {i : Instr} (hrun : t.core.run = .running)
    (hd : decode strict t.core.fetch = .ok i) (r : Reg) :
    t.stepWith strict = .fault (.unwrittenRegister r) ↔
      ∃ before after, readRegs i = before ++ r :: after ∧ t.written.get r = false ∧
        ∀ q ∈ before, t.written.get q = true := by
  rw [stepWith_running hrun, cycle_of_decode hd, exec_eq_unwrittenRegister_iff, firstUnwritten_eq_some]

end Tracked

/-- Settles O57: a step stops where its reads do, and the registers R22 lists are the ones the tracked machine checks. -/
theorem unwrittenPolicyFaultsOnTheFirstRead : Obligations.UnwrittenPolicyFaultsOnTheFirstRead := by
  unfold Obligations.UnwrittenPolicyFaultsOnTheFirstRead
  intro reads
  have hreads : reads = readRegs := funext fun i => by cases i <;> rfl
  rw [hreads]
  refine ⟨?_, ?_, ?_, ?_⟩
  · intro strict t i hrun hd r
    exact Tracked.stepWith_eq_unwrittenRegister_iff hrun hd r
  · intro strict s i r rest hrun hd hfirst
    refine (Tracked.stepWith_eq_unwrittenRegister_iff (t := .start .unwritten s) hrun hd r).mpr ⟨[], rest, hfirst, ?_, ?_⟩
    · exact Tracked.start_written .unwritten s r
    · exact List.forall_mem_nil _
  · exact Tracked.exec_eq_unwrittenCond_iff
  · intro t w hrun hd
    exact (Tracked.stepWith_running hrun).trans (Tracked.cycle_of_error hd)

/-! ## Sign extension (00_scope.md R9) -/

/-- The value of a field no wider than a word when it is extended: 2^n is taken off, modulo 2^16, when the top bit is 1. -/
theorem toNat_sext {n : Nat} (v : BitVec n) (hn : n ≤ 16) :
    (sext v).toNat = if v.toNat / 2 ^ (n - 1) % 2 = 1 then v.toNat + (2 ^ 16 - 2 ^ n) else v.toNat := by
  rw [sext, BitVec.toNat_signExtend, BitVec.toNat_setWidth_of_le hn, BitVec.msb_eq_getLsbD_last, getLsbD_eq_decide]
  simp only [decide_eq_true_eq]
  split <;> rfl

/-- Ones put above a field's bits are added to it. -/
theorem or_shiftLeft_eq_add {n : Nat} (v : BitVec n) (k : Nat) : v.toNat ||| (k <<< n) = v.toNat + k * 2 ^ n := by
  rw [Nat.or_comm, ← Nat.shiftLeft_add_eq_or_of_lt v.isLt, Nat.shiftLeft_eq, Nat.add_comm]

/-- Settles O8: both formulas of R9 are the value with 2^n taken off modulo 2^16. -/
theorem signExtensionIsTheOrFormula : Obligations.SignExtensionIsTheOrFormula := by
  refine ⟨fun n v _ hn => ?_, fun b => BitVec.toNat_setWidth_of_le (by decide)⟩
  have hv : v.toNat < 2 ^ n := v.isLt
  have hpow : 2 ^ n ≤ 2 ^ 16 := Nat.pow_le_pow_right (by decide) hn
  rw [toNat_sext v hn, or_shiftLeft_eq_add]
  generalize 2 ^ n = p at hv hpow
  constructor
  · split <;> omega
  · intro htop
    rw [if_pos htop]
    omega

end Sys2Proof.Machine

/-! Proofs of the statements of 10_state.md. First what an instruction that completes leaves unchanged: general registers
(R22), COND (R28), PC (R25) and the form of memory; then a blocked core (R33), the invariant of every run (R30) and reset
(R36). -/

namespace Sys2Proof.Machine

/-! ## The effect of an instruction -/

/-- Whether an instruction writes PC after the fetch increment (10_state.md R25). -/
def writesPc : Instr → Bool
  | .br _ _ | .jmp _ | .jsr _ | .jsrr _ => true
  | _ => false

/-- The ways an instruction that completes can change the state, as few as the fields of the state need. -/
inductive Effect (i : Instr) (s : State) : State → Prop
  | result (d : Reg) (v : Word) (hset : setsCond i = true) (hregs : writeRegs i = [d]) : Effect i s (s.writeResult d v)
  | store (a v : Word) (hset : setsCond i = false) : Effect i s (s.writeMem a v)
  | jump (a : Word) (hset : setsCond i = false) (hpc : writesPc i = true) : Effect i s (s.setPc a)
  | call (a : Word) (hset : setsCond i = false) (hregs : writeRegs i = [7]) (hpc : writesPc i = true) :
      Effect i s (s.link.setPc a)
  | read (v : Word) (input : InStream) (output : List Byte) (hset : setsCond i = false) (hregs : writeRegs i = [0]) :
      Effect i s { s.setReg 0 v with input := input, output := output }
  | rest (run : RunState) (output : List Byte) (hset : setsCond i = false) :
      Effect i s { s with run := run, output := output }

theorem exec_effect {i : Instr} {s t : State} (h : exec i s = .next t) : Effect i s t := by
  rcases exec_cases h with ⟨hset, d, v, hregs, rfl⟩ | ⟨hset, -, -, a, v, rfl⟩ | ⟨hset, -, hi, a, rfl⟩ |
    ⟨hset, hregs, hi, a, rfl⟩ | ⟨hset, hregs, b, s', hread⟩ | ⟨hset, -, -, bs, rfl⟩ | ⟨rfl, rfl⟩ | ⟨rfl, rfl⟩ |
    ⟨v, rfl, rfl⟩ | ⟨hi, rfl⟩
  · exact .result d v hset hregs
  · exact .store a v hset
  · exact .jump a hset (by rcases hi with ⟨_, _, rfl⟩ | ⟨_, rfl⟩ <;> rfl)
  · exact .call a hset hregs (by rcases hi with ⟨_, rfl⟩ | ⟨_, rfl⟩ <;> rfl)
  · rcases hread with ⟨-, hb, rfl⟩ | ⟨-, hb, rfl⟩ <;> rw [State.inByte_frame hb]
    · exact .read (zext8 b) s'.input s.output hset hregs
    · exact .read (zext8 b) s'.input (s.output ++ Config.inPrompt ++ [b]) hset hregs
  · exact .rest s.run (s.output ++ bs) hset
  · exact .rest (.halted .sentinel) s.output rfl
  · exact .rest (.halted .trapHalt) (s.output ++ Config.haltNotice) rfl
  · exact .rest (.faulted (.invalidTrapVector v)) s.output rfl
  · exact .rest t.run t.output (by rcases hi with rfl | rfl <;> rfl)

section Frame

variable {i : Instr} {s t : State}

/-- An instruction changes only the registers listed for it (10_state.md R22). -/
theorem exec_reg_of_not_mem (h : exec i s = .next t) {r : Reg} (hr : r ∉ writeRegs i) : t.reg r = s.reg r := by
  have hne {d : Reg} (hregs : writeRegs i = [d]) : d ≠ r := fun e => hr (by simp [hregs, e])
  cases exec_effect h with
  | result d v _ hregs => exact s.reg_setReg_ne (hne hregs) v
  | call _ _ hregs => exact s.reg_setReg_ne (hne hregs) s.pc
  | read v _ _ _ hregs => exact s.reg_setReg_ne (hne hregs) v
  | store | jump | rest => rfl

/-- An instruction that sets COND ends with its result's flag in COND (R27). -/
theorem exec_cond_of_setsCond (h : exec i s = .next t) (hset : setsCond i = true) {d : Reg} (hd : writeRegs i = [d]) :
    t.cond = flagFor (t.reg d) := by
  cases exec_effect h with
  | result d' v _ hregs =>
    obtain rfl : d' = d := by simpa [hregs] using hd
    simp [condOf_eq_flagFor]
  | store _ _ hno | jump _ hno | call _ hno | read _ _ _ hno | rest _ _ hno => simp [hset] at hno

/-- No other instruction changes COND (R28). -/
theorem exec_cond_of_not_setsCond (h : exec i s = .next t) (hno : setsCond i = false) : t.cond = s.cond := by
  cases exec_effect h with
  | result _ _ hset => simp [hset] at hno
  | store | jump | call | read | rest => rfl

/-- PC stays at the incremented value but for BR, JMP, JSR and JSRR (R25). -/
theorem exec_pc_of_not_writesPc (h : exec i s = .next t) (hno : writesPc i = false) : t.pc = s.pc := by
  cases exec_effect h with
  | jump _ _ hpc | call _ _ _ hpc => simp [hpc] at hno
  | result | store | read | rest => rfl

theorem exec_keeps_condLegal (h : exec i s = .next t) (hs : s.condLegal) : t.condLegal := by
  cases exec_effect h with
  | result d v => exact condOf_legal v
  | store | jump | call | read | rest => exact hs

theorem exec_keeps_wf (h : exec i s = .next t) (hs : s.mem.wf) : t.mem.wf := by
  cases exec_effect h with
  | store a v => exact Memory.wf_write hs a v
  | result | jump | call | read | rest => exact hs

end Frame

/-! ## The instructions by what they write -/

/-- ADD, AND, NOT, LD, LDI, LDR or LEA with destination `d` (10_state.md R28). -/
def IsResultInto (d : Reg) (i : Instr) : Prop :=
  (∃ a b, i = .addReg d a b ∨ i = .andReg d a b) ∨ (∃ a m, i = .addImm d a m ∨ i = .andImm d a m) ∨
    (∃ a, i = .not d a) ∨ (∃ o, i = .ld d o ∨ i = .ldi d o ∨ i = .lea d o) ∨ (∃ b o, i = .ldr d b o)

/-- They are the instructions that set COND, and they write their destination alone. -/
theorem isResultInto_iff (d : Reg) (i : Instr) : IsResultInto d i ↔ setsCond i = true ∧ writeRegs i = [d] := by
  cases i <;> simp [IsResultInto, setsCond, writeRegs]

/-- An instruction that does not set COND writes R7 as a call or R0 as a read of the input stream, or no register (R22). -/
theorem mem_writeRegs_of_not_setsCond {i : Instr} {r : Reg} (hno : setsCond i = false) (hr : r ∈ writeRegs i) :
    (r = 7 ∧ ((∃ o, i = .jsr o) ∨ ∃ b, i = .jsrr b)) ∨ (r = 0 ∧ (i = .trapGetc ∨ i = .trapIn)) := by
  cases i with
  | jsr o => exact .inl ⟨List.mem_singleton.mp hr, .inl ⟨o, rfl⟩⟩
  | jsrr b => exact .inl ⟨List.mem_singleton.mp hr, .inr ⟨b, rfl⟩⟩
  | trapGetc => exact .inr ⟨List.mem_singleton.mp hr, .inl rfl⟩
  | trapIn => exact .inr ⟨List.mem_singleton.mp hr, .inr rfl⟩
  | addReg | addImm | andReg | andImm | not | ld | ldi | ldr | lea => cases hno
  | _ => cases hr

/-- An instruction that sets COND writes one register. -/
theorem exists_writeRegs_of_setsCond {i : Instr} (hset : setsCond i = true) : ∃ d, writeRegs i = [d] := by
  cases i with
  | addReg | addImm | andReg | andImm | not | ld | ldi | ldr | lea => exact ⟨_, rfl⟩
  | _ => cases hset

/-- Settles O36: a register that changes is one of `writeRegs`, whose lists are R22's. -/
theorem onlyNamedWritersChangeRegisters : Obligations.OnlyNamedWritersChangeRegisters := by
  intro i s t h r hchanged
  have hr : r ∈ writeRegs i := not_not.mp fun hno => hchanged (exec_reg_of_not_mem h hno)
  cases hset : setsCond i with
  | true =>
    obtain ⟨d, hd⟩ := exists_writeRegs_of_setsCond hset
    obtain rfl : r = d := by simpa [hd] using hr
    have hresult : IsResultInto r i := (isResultInto_iff r i).mpr ⟨hset, hd⟩
    rcases hresult with h₁ | h₂ | h₃ | h₄ | h₅
    · exact .inl h₁
    · exact .inr (.inl h₂)
    · exact .inr (.inr (.inl h₃))
    · exact .inr (.inr (.inr (.inl h₄)))
    · exact .inr (.inr (.inr (.inr (.inl h₅))))
  | false => exact .inr (.inr (.inr (.inr (.inr (mem_writeRegs_of_not_setsCond hset hr)))))

/-- Settles O37: the seven are the instructions that write a result, and only they set COND. -/
theorem exactlyTheSevenSetCond : Obligations.ExactlyTheSevenSetCond := by
  intro i s t h
  constructor
  · intro d hseven
    obtain ⟨hset, hd⟩ := (isResultInto_iff d i).mp hseven
    exact exec_cond_of_setsCond h hset hd
  · intro hreg himm hnot hpc hldr
    refine exec_cond_of_not_setsCond h (Bool.eq_false_iff.mpr fun hset => ?_)
    obtain ⟨d, hd⟩ := exists_writeRegs_of_setsCond hset
    have hresult : IsResultInto d i := (isResultInto_iff d i).mpr ⟨hset, hd⟩
    rcases hresult with ⟨a, b, hi⟩ | ⟨a, m, hi⟩ | ⟨a, hi⟩ | ⟨o, hi⟩ | ⟨b, o, hi⟩
    · exact hi.elim (hreg d a b).1 (hreg d a b).2
    · exact hi.elim (himm d a m).1 (himm d a m).2
    · exact hnot d a hi
    · exact hi.elim (hpc d o).1 (·.elim (hpc d o).2.1 (hpc d o).2.2)
    · exact hldr d b o hi

/-! ## PC (10_state.md R25) -/

/-- The opcode's number is the top four bits of the word. -/
theorem opcodeOf_bits_toNat (w : Word) : (opcodeOf w).bits.toNat = w.toNat / 2 ^ 12 := by
  rw [opcodeOf, Opcode.bits_ofBits, toNat_field]
  have := w.isLt
  omega

/-- A trap vector decodes to no instruction that writes PC. -/
theorem writesPc_decodeTrap (v : BitVec 8) : writesPc (decodeTrap v) = false := by
  revert v; decide

/-- A word that decodes to an instruction that writes PC has JSR's opcode or JMP's. -/
theorem opcodeOf_of_writesPc {w : Word} (h : writesPc (decodeWord w) = true) : opcodeOf w = .jsr ∨ opcodeOf w = .jmp := by
  unfold decodeWord at h
  cases hop : opcodeOf w with
  | jsr => exact .inl rfl
  | jmp => exact .inr rfl
  | trap => simp [hop, writesPc_decodeTrap] at h
  | add | and => rw [hop] at h; dsimp only at h; split at h <;> cases h
  | _ => rw [hop] at h; cases h

/-- Settles O38: only the words of opcodes 4 and 12 decode to an instruction that writes PC. -/
theorem onlyJumpsAndCallsMovePc : Obligations.OnlyJumpsAndCallsMovePc := by
  intro s t hrun h h4 h12
  rw [step_running hrun] at h
  have hno : writesPc (decodeWord s.fetch) = false := by
    refine Bool.eq_false_iff.mpr fun hw => ?_
    rw [← opcodeOf_bits_toNat] at h4 h12
    rcases opcodeOf_of_writesPc hw with hop | hop
    · exact h4 (by rw [hop]; rfl)
    · exact h12 (by rw [hop]; rfl)
  rw [exec_pc_of_not_writesPc h hno, State.advancePc_pc]
  apply BitVec.eq_of_toNat_eq
  simp

/-! ## A blocked core (10_state.md R33) -/

/-- `zext_8` keeps the number (00_scope.md R9). -/
theorem zext8_eq_ofNat (b : Byte) : zext8 b = BitVec.ofNat 16 b.toNat := by
  apply BitVec.eq_of_toNat_eq
  simp [zext8]

/-- The core is blocked on a stream with no byte and no end. -/
theorem State.inByte_eq_none_iff (s : State) : s.inByte = none ↔ s.input = ⟨[], false⟩ := by
  constructor
  · intro h
    rcases s.inByte_cases with ⟨b, rest, -, h'⟩ | ⟨-, -, h'⟩ | ⟨hp, he, -⟩
    · rw [h'] at h; cases h
    · rw [h'] at h; cases h
    · exact (congrArg₂ InStream.mk hp he : s.input = _)
  · intro h
    simp [State.inByte, h, InStream.readByte]

/-- `inByte` is the answer of the stream, with EOF mapped to 0xFF (44_trap.md R141). -/
theorem State.inByte_of_readByte {s : State} {x : Option Byte} {rest : InStream} (h : s.input.readByte = some (x, rest)) :
    s.inByte = some (x.getD Config.inputEndByte, { s with input := rest }) := by
  unfold State.inByte
  rw [h]
  cases x <;> rfl

/-- Supplying no byte is no move. -/
@[simp] theorem State.supply_nil (s : State) : s.supply [] = s := by
  simp [State.supply, InStream.supply]

/-- Only GETC and IN block, and only where there is no answer. -/
theorem input_of_exec_blocked {i : Instr} {s : State} {bs : List Byte} (h : exec i s = .fault (.blockedOnInput bs)) :
    (i = .trapGetc ∨ i = .trapIn) ∧ s.input = ⟨[], false⟩ := by
  cases i with
  | trapGetc =>
    simp only [exec, execTrapGetc] at h
    split at h
    · cases h
    · next hb => exact ⟨.inl rfl, s.inByte_eq_none_iff.mp hb⟩
  | trapIn =>
    simp only [exec, execTrapIn] at h
    split at h
    · cases h
    · next hb => exact ⟨.inr rfl, (s.emitString Config.inPrompt).inByte_eq_none_iff.mp hb⟩
  | trapPuts => simp only [exec, execTrapPuts] at h; split at h <;> cases h
  | trapPutsp => simp only [exec, execTrapPutsp] at h; split at h <;> cases h
  | _ => cases h

/-- Where the stream answers, GETC and IN complete with the answer in R0. -/
theorem exec_of_readByte {i : Instr} (hi : i = .trapGetc ∨ i = .trapIn) {s : State} {x : Option Byte} {rest : InStream}
    (h : s.input.readByte = some (x, rest)) :
    ∃ t, exec i s = .next t ∧ t.reg 0 = zext8 (x.getD Config.inputEndByte) ∧ t.input = rest ∧ t.pc = s.pc := by
  rcases hi with rfl | rfl
  · simp only [exec, execTrapGetc, State.inByte_of_readByte h]
    exact ⟨_, rfl, State.reg_setReg_same _ 0 _, rfl, rfl⟩
  · simp only [exec, execTrapIn, State.inByte_of_readByte (s := s.emitString Config.inPrompt) h]
    exact ⟨_, rfl, State.reg_setReg_same _ 0 _, rfl, rfl⟩

/-- The cycle of a GETC or an IN, where the stream answers. -/
theorem step_of_readByte {s : State} (hrun : s.run = .running)
    (hi : decodeWord s.fetch = .trapGetc ∨ decodeWord s.fetch = .trapIn) {x : Option Byte} {rest : InStream}
    (h : s.input.readByte = some (x, rest)) :
    ∃ t, step s = .next t ∧ t.reg 0 = zext8 (x.getD Config.inputEndByte) ∧ t.input = rest ∧ t.pc = s.pc + 1 := by
  rw [step_running hrun]
  exact exec_of_readByte hi (s := s.advancePc) h

/-- A blocked core is running a GETC or an IN on a stream without an answer. -/
theorem state_of_step_blocked {s : State} {bs : List Byte} (h : step s = .fault (.blockedOnInput bs)) :
    s.run = .running ∧ (decodeWord s.fetch = .trapGetc ∨ decodeWord s.fetch = .trapIn) ∧ s.input = ⟨[], false⟩ := by
  by_cases hrun : s.run = .running
  · rw [step_running hrun] at h
    exact ⟨hrun, input_of_exec_blocked (s := s.advancePc) h⟩
  · rw [step_stopped hrun] at h
    cases h

/-- Settles O44: the host's move changes the stream alone, so the same word is fetched and its read now has an answer. -/
theorem blockedCoreCompletesWhenTheHostAnswers : Obligations.BlockedCoreCompletesWhenTheHostAnswers := by
  intro s bs h
  obtain ⟨hrun, hi, hinput⟩ := state_of_step_blocked h
  refine ⟨by rwa [State.supply_nil], fun b more => ?_, ?_⟩
  · have hread : (s.supply (b :: more)).input.readByte = some (some b, ⟨more, false⟩) := by
      rw [State.supply_input, hinput]; rfl
    have hstep := step_of_readByte (s := s.supply (b :: more)) hrun hi hread
    rwa [zext8_eq_ofNat] at hstep
  · have hread : s.signalEnd.input.readByte = some (none, ⟨[], true⟩) := by
      rw [State.signalEnd_input, hinput]; rfl
    exact step_of_readByte (s := s.signalEnd) hrun hi hread

/-! ## The invariant (10_state.md R26, R30) -/

theorem exec_keeps_inv {i : Instr} {s t : State} (h : exec i s = .next t) (hs : s.Inv) : t.Inv :=
  ⟨exec_keeps_wf h hs.1, exec_keeps_condLegal h hs.2⟩

/-- Settles O52: a step is an instruction that completes after the increment of PC, which touches neither part of the
invariant, or no change. -/
theorem stepKeepsTheInvariant : Obligations.StepKeepsTheInvariant := by
  intro strict s t hs h
  rcases stepWith_cases h with ⟨-, i, -, hexec⟩ | ⟨-, rfl⟩
  · exact exec_keeps_inv hexec (s := s.advancePc) hs
  · exact hs

/-- Settles O53. -/
theorem resetHasTheInvariant : Obligations.ResetHasTheInvariant := ⟨State.reset_mem_wf, .inr (.inl State.reset_cond)⟩

/-- A boot that succeeds is reset with the loaded memory and the host's stream (70_reset_and_hazards.md R180). -/
theorem boot_eq_ok {images : List Image} {input : InStream} {s : State} (h : boot images input = .ok s) :
    ∃ m, loadImages State.reset.mem images = .ok m ∧ s = { State.reset with mem := m, input := input } := by
  unfold boot at h
  split at h
  · next m hm => cases h; exact ⟨m, hm, rfl⟩
  · cases h

/-- Settles O54: a boot has the invariant as reset has, a step keeps it, and the host's moves touch only the stream. -/
theorem everyReachableStateIsLegal : Obligations.EveryReachableStateIsLegal := by
  intro s hs
  induction hs with
  | boot images input s h =>
    obtain ⟨m, hm, rfl⟩ := boot_eq_ok h
    exact ⟨Memory.wf_loadImages State.reset_mem_wf hm, resetHasTheInvariant.2⟩
  | step s t _ h ih => exact stepKeepsTheInvariant Config.strictUnusedBits s t ih h
  | supply s bs _ ih => exact ih
  | signalEnd s _ ih => exact ih

/-! ## Reset (10_state.md R36, 70_reset_and_hazards.md R180) -/

/-- Settles O46. -/
theorem resetLeavesWhatTheSourceFixes : Obligations.ResetLeavesWhatTheSourceFixes :=
  ⟨State.readMem_reset, State.reset_pc, State.reset_run, State.reset_output⟩

/-- Settles O47. -/
theorem resetRegistersAreTheChosenValues : Obligations.ResetRegistersAreTheChosenValues :=
  ⟨State.reset_reg, State.reset_cond⟩

end Sys2Proof.Machine

/-! Proofs of the statements of 20_memory.md. First memory itself: what a run of writes leaves to read, and the canonical
form (R42). Then what a cycle lists as its accesses (R45), and that an instruction is the same on any memory with the same
words where it reads: its stores are its listed writes, and no other word matters. -/

namespace Sys2Proof.Machine

/-! ## A run of writes (R42) -/

/-- Writes of words to addresses, in order. -/
def Memory.writeAll (m : Memory) (writes : List (Word × Word)) : Memory := writes.foldl (fun m w => m.write w.1 w.2) m

theorem Memory.writeAll_concat (m : Memory) (writes : List (Word × Word)) (w : Word × Word) :
    m.writeAll (writes ++ [w]) = (m.writeAll writes).write w.1 w.2 := List.foldl_concat ..

/-- A read after writes: the last word written to the address, or the old word if there was none. -/
theorem Memory.read_writeAll (m : Memory) (writes : List (Word × Word)) (a : Word) :
    (m.writeAll writes).read a = ((writes.reverse.find? fun w => w.1 == a).map Prod.snd).getD (m.read a) := by
  induction writes using List.reverseRecOn with
  | nil => rfl
  | append_singleton writes w ih =>
    rw [Memory.writeAll_concat, Memory.read_write, ih, List.reverse_concat, List.find?_cons]
    by_cases hw : w.1 = a
    · simp [hw]
    · simp [hw, beq_eq_false_iff_ne.mpr hw]

/-- Writes leave every other word as it was. -/
theorem Memory.read_writeAll_of_not_mem (m : Memory) {writes : List (Word × Word)} {a : Word}
    (ha : a ∉ writes.map Prod.fst) : (m.writeAll writes).read a = m.read a := by
  have hnone : writes.reverse.find? (fun w => w.1 == a) = none := by
    refine List.find?_eq_none.mpr fun w hw he => ha ?_
    exact List.mem_map.mpr ⟨w, List.mem_reverse.mp hw, beq_iff_eq.mp he⟩
  rw [Memory.read_writeAll, hnone]
  rfl

/-- What an address reads as after writes to it does not depend on what it held. -/
theorem Memory.read_writeAll_of_mem (m m' : Memory) {writes : List (Word × Word)} {a : Word}
    (ha : a ∈ writes.map Prod.fst) : (m.writeAll writes).read a = (m'.writeAll writes).read a := by
  obtain ⟨w, hw, rfl⟩ := List.mem_map.mp ha
  have hsome : (writes.reverse.find? fun v => v.1 == w.1).isSome :=
    List.find?_isSome.mpr ⟨w, List.mem_reverse.mpr hw, beq_self_eq_true w.1⟩
  obtain ⟨v, hv⟩ := Option.isSome_iff_exists.mp hsome
  rw [Memory.read_writeAll, Memory.read_writeAll, hv]
  rfl

theorem wordAt_add_one (a : Word) (k : Nat) : wordAt a k + 1 = wordAt a (k + 1) := by
  rw [wordAt, wordAt, BitVec.ofNat_add, BitVec.add_assoc]
  rfl

/-- A loader's copy is writes to successive addresses (R42, 70_reset_and_hazards.md R184). -/
theorem copyWords_wordAt (m : Memory) (a : Word) (k : Nat) (ws : List Word) :
    copyWords m (wordAt a k) ws = m.writeAll ((ws.zipIdx k).map fun w => (wordAt a w.2, w.1)) := by
  induction ws generalizing m k with
  | nil => rfl
  | cons w ws ih => rw [copyWords, wordAt_add_one, ih]; rfl

/-- Settles O9: a run of writes to an empty memory, and one write to any. -/
theorem readReturnsTheMostRecentWrite : Obligations.ReadReturnsTheMostRecentWrite := by
  refine ⟨State.reset.mem.read_writeAll, fun m a ws => ?_, fun m a v => ⟨?_, fun b hb => ?_⟩⟩
  · have h := copyWords_wordAt m a 0 ws
    rwa [wordAt_zero] at h
  · rw [Memory.read_write, if_pos rfl]
  · rw [Memory.read_write, if_neg hb.symm]

/-! ## The canonical form (R40, R42) -/

/-- A word that does not read as an unlisted one is listed. -/
theorem Memory.mem_of_lookup_ne {cells : List WordCell} {k : Nat} (h : Memory.lookup cells k ≠ Memory.unlisted) :
    (k, Memory.lookup cells k) ∈ cells := by
  induction cells with
  | nil => exact absurd rfl h
  | cons c rest ih =>
    rw [Memory.lookup] at h ⊢
    split at h
    · next hk => rw [if_pos hk, ← hk]; exact .head _
    · next hk => rw [if_neg hk]; exact .tail _ (ih h)

/-- With rising addresses a listed word is what its address reads as. -/
theorem Memory.lookup_of_mem {cells : List WordCell} (hs : cells.Pairwise fun c d => c.1 < d.1) {c : WordCell}
    (hc : c ∈ cells) : Memory.lookup cells c.1 = c.2 := by
  induction hs with
  | nil => cases hc
  | @cons d rest hd _ ih =>
    rw [Memory.lookup]
    rcases List.mem_cons.mp hc with rfl | hc
    · rw [if_pos rfl]
    · rw [if_neg (hd c hc).ne, ih hc]

/-- The words a canonical memory lists are those that do not read as unlisted ones. -/
theorem Memory.mem_cells_iff {m : Memory} (h : m.wf) (c : WordCell) :
    c ∈ m.cells ↔ ∃ a, c = (a.toNat, m.read a) ∧ m.read a ≠ Memory.unlisted := by
  obtain ⟨hs, hv⟩ := h
  constructor
  · intro hc
    obtain ⟨hlt, hne⟩ := hv c hc
    have haddr : (BitVec.ofNat 16 c.1).toNat = c.1 := Nat.mod_eq_of_lt hlt
    have hread : m.read (BitVec.ofNat 16 c.1) = c.2 := by rw [Memory.read, haddr, Memory.lookup_of_mem hs hc]
    exact ⟨BitVec.ofNat 16 c.1, by rw [haddr, hread], hread ▸ hne⟩
  · rintro ⟨a, rfl, hne⟩
    exact Memory.mem_of_lookup_ne hne

/-- Settles O10: the two list the same words, each in rising order of address. -/
theorem canonicalMemoryIsItsWords : Obligations.CanonicalMemoryIsItsWords := by
  intro m m' hm hm' hread
  have hmem (c : WordCell) : c ∈ m.cells ↔ c ∈ m'.cells := by
    rw [Memory.mem_cells_iff hm, Memory.mem_cells_iff hm']
    simp only [hread]
  have hperm : m.cells.Perm m'.cells :=
    (List.perm_ext_iff_of_nodup (hm.1.imp fun hlt e => hlt.ne (congrArg Prod.fst e))
      (hm'.1.imp fun hlt e => hlt.ne (congrArg Prod.fst e))).mpr hmem
  exact congrArg Memory.mk (hperm.eq_of_pairwise (fun _ _ _ _ hcd hdc => absurd hdc hcd.not_gt) hm.1 hm'.1)

/-! ## The list of accesses (R45) -/

@[simp] theorem cycleAccesses_running {s : State} (h : s.run = .running) :
    cycleAccesses s = .fetch s.pc :: instrAccesses (decodeWord s.fetch) s.advancePc := by
  rw [cycleAccesses, h]

@[simp] theorem cycleAccesses_stopped {s : State} (h : s.run ≠ .running) : cycleAccesses s = [] := by
  unfold cycleAccesses
  split
  · next hr => exact absurd hr h
  · rfl
  · rfl

theorem mem_writeAddr_iff (accesses : List Access) (a : Word) :
    a ∈ accesses.filterMap Access.writeAddr ↔ Access.write a ∈ accesses := by
  rw [List.mem_filterMap]
  constructor
  · rintro ⟨_ | _ | b, hb, h⟩ <;> cases h
    exact hb
  · exact fun h => ⟨_, h, rfl⟩

/-- A scan reads the successive words from its start, wrapping (R55). -/
theorem scanReads_eq (a : Word) (n : Nat) : scanReads a n = (List.range n).map fun k => .read (wordAt a k) := by
  induction n generalizing a with
  | zero => rfl
  | succ n ih => simp [scanReads, ih, List.range_succ_eq_map, wordAt_succ, Function.comp_def]

theorem length_readAddr_scanReads (a : Word) (n : Nat) : ((scanReads a n).filterMap Access.readAddr).length = n := by
  induction n generalizing a with
  | zero => rfl
  | succ n ih => exact congrArg (· + 1) (ih (a + 1))

theorem writeAddr_scanReads (a : Word) (n : Nat) : (scanReads a n).filterMap Access.writeAddr = [] := by
  induction n generalizing a with
  | zero => rfl
  | succ n ih => exact ih (a + 1)

/-! ### The string traps that complete -/

theorem State.emitString_output_length_sub (s : State) (bs : List Byte) :
    (s.emitString bs).output.length - s.output.length = bs.length := by
  rw [State.emitString_output, List.length_append, Nat.add_sub_cancel_left]

/-- PUTS that completes has found its string's end, and emits the string (44_trap.md R152). -/
theorem exec_trapPuts_eq_next {s t : State} (h : exec .trapPuts s = .next t) :
    ∃ bs, putsBytes s.mem Config.memoryWords (s.reg 0) = some bs ∧ t = s.emitString bs := by
  simp only [exec, execTrapPuts] at h
  split at h
  · next bs hbs => cases h; exact ⟨bs, hbs, rfl⟩
  · cases h

/-- So does PUTSP (R154). -/
theorem exec_trapPutsp_eq_next {s t : State} (h : exec .trapPutsp s = .next t) :
    ∃ bs, putspBytes s.mem Config.memoryWords (s.reg 0) = some bs ∧ t = s.emitString bs := by
  simp only [exec, execTrapPutsp] at h
  split at h
  · next bs hbs => cases h; exact ⟨bs, hbs, rfl⟩
  · cases h

theorem instrAccesses_trapPuts {s : State} {bs : List Byte}
    (h : putsBytes s.mem Config.memoryWords (s.reg 0) = some bs) :
    instrAccesses .trapPuts s = scanReads (s.reg 0) (bs.length + 1) := by
  simp only [instrAccesses, h]

theorem instrAccesses_trapPutsp {s : State} {bs : List Byte}
    (h : putspBytes s.mem Config.memoryWords (s.reg 0) = some bs) :
    instrAccesses .trapPutsp s = scanReads (s.reg 0) ((bs.length + 2) / 2) := by
  simp only [instrAccesses, h]
  rw [Nat.add_div_right _ (by decide)]

/-- Settles O40: by the list of each instruction, for the string traps a scan as long as what they emit. -/
theorem accessesAreThoseOfTheTable : Obligations.AccessesAreThoseOfTheTable := by
  intro i s t h
  cases i with
  | trapPuts =>
    obtain ⟨bs, hbs, rfl⟩ := exec_trapPuts_eq_next h
    dsimp only
    rw [instrAccesses_trapPuts hbs, length_readAddr_scanReads, writeAddr_scanReads, State.emitString_output_length_sub]
    exact ⟨rfl, rfl⟩
  | trapPutsp =>
    obtain ⟨bs, hbs, rfl⟩ := exec_trapPutsp_eq_next h
    dsimp only
    rw [instrAccesses_trapPutsp hbs, length_readAddr_scanReads, writeAddr_scanReads, State.emitString_output_length_sub]
    exact ⟨rfl, rfl⟩
  | _ => exact ⟨rfl, rfl⟩

/-- Settles O58: by the list of each instruction, a scan being its successive addresses. -/
theorem accessesComeInOrderAtTheirAddresses : Obligations.AccessesComeInOrderAtTheirAddresses := by
  refine ⟨fun i s t h => ?_, fun s hrun => cycleAccesses_running hrun, fun s hrun => cycleAccesses_stopped hrun⟩
  cases i with
  | trapPuts =>
    obtain ⟨bs, hbs, rfl⟩ := exec_trapPuts_eq_next h
    dsimp only
    rw [instrAccesses_trapPuts hbs, scanReads_eq, State.emitString_output_length_sub]
  | trapPutsp =>
    obtain ⟨bs, hbs, rfl⟩ := exec_trapPutsp_eq_next h
    dsimp only
    rw [instrAccesses_trapPutsp hbs, scanReads_eq, State.emitString_output_length_sub]
  | _ => rfl

/-! ## An instruction on another memory (R45, R47, R51) -/

/-- The state with another memory. -/
def State.withMem (s : State) (m : Memory) : State := { s with mem := m }

section WithMem

variable (s : State) (m : Memory)

theorem State.writeResult_withMem (dr : Reg) {v w : Word} (hv : v = w) :
    (s.withMem m).writeResult dr v = (s.writeResult dr w).withMem m := hv ▸ rfl

theorem State.writeMem_withMem {a b : Word} (ha : a = b) (v : Word) :
    (s.withMem m).writeMem a v = (s.writeMem b v).withMem (m.write b v) := ha ▸ rfl

theorem State.branch_withMem (conds : BitVec 3) (off : BitVec 9) :
    (s.withMem m).branch conds off = (s.branch conds off).withMem m :=
  (apply_ite (State.withMem · m) (conds.setWidth 16 &&& s.cond ≠ 0) (s.setPc (pcRel9 s off)) s).symm

theorem State.inByte_withMem : (s.withMem m).inByte = s.inByte.map (Prod.map id (State.withMem · m)) := by
  unfold State.inByte
  rw [show (s.withMem m).input = s.input from rfl]
  rcases s.input.readByte with _ | ⟨_ | x, rest⟩ <;> rfl

/-- The pointer of LDI and STI is the same where the word it is read from is. -/
theorem indirect9_withMem {off : BitVec 9} (h : m.read (pcRel9 s off) = s.readMem (pcRel9 s off)) :
    indirect9 (s.withMem m) off = indirect9 s off := h

end WithMem

/-- A PUTS scan that ends is the same in every memory with the same words where it reads. -/
theorem putsBytes_of_agree {m m' : Memory} {n : Nat} {a : Word} {bs : List Byte} (h : putsBytes m n a = some bs)
    (hm : ∀ b ∈ (scanReads a (bs.length + 1)).filterMap Access.readAddr, m'.read b = m.read b) :
    putsBytes m' n a = some bs := by
  induction n generalizing a bs with
  | zero => cases h
  | succ n ih =>
    rw [putsBytes_succ] at h ⊢
    rw [hm a (.head _)]
    split at h
    · next hz => rwa [if_pos hz]
    · next hz =>
      obtain ⟨bs, hbs, rfl⟩ := Option.map_eq_some_iff.mp h
      rw [if_neg hz, ih hbs fun b hb => hm b (.tail _ hb)]
      rfl

/-- So is a PUTSP scan. -/
theorem putspBytes_of_agree {m m' : Memory} {n : Nat} {a : Word} {bs : List Byte} (h : putspBytes m n a = some bs)
    (hm : ∀ b ∈ (scanReads a (bs.length / 2 + 1)).filterMap Access.readAddr, m'.read b = m.read b) :
    putspBytes m' n a = some bs := by
  induction n generalizing a bs with
  | zero => cases h
  | succ n ih =>
    rw [putspBytes_succ] at h ⊢
    rw [hm a (.head _)]
    split at h
    · next hlo => rwa [if_pos hlo]
    · next hlo =>
      rw [if_neg hlo]
      split at h
      · next hhi => rwa [if_pos hhi]
      · next hhi =>
        obtain ⟨bs, hbs, rfl⟩ := Option.map_eq_some_iff.mp h
        have hlen : (bs.length + 2) / 2 = bs.length / 2 + 1 := Nat.add_div_right _ (by decide)
        rw [if_neg hhi, ih hbs fun b hb => hm b (.tail _ (hlen ▸ hb))]
        rfl

/-- An instruction that completes makes its listed writes to memory, and with any memory that has the same words where it
reads it completes in the same state, with the same writes made to that memory. -/
theorem exec_withMem {i : Instr} {s t : State} {m : Memory} (h : exec i s = .next t)
    (hm : ∀ a ∈ (instrAccesses i s).filterMap Access.readAddr, m.read a = s.readMem a) :
    ∃ writes, writes.map Prod.fst = (instrAccesses i s).filterMap Access.writeAddr ∧ t.mem = s.mem.writeAll writes ∧
      exec i (s.withMem m) = .next (t.withMem (m.writeAll writes)) := by
  cases i with
  | ld dr off => cases h; exact ⟨[], rfl, rfl, congrArg Host.Outcome.next (s.writeResult_withMem m dr (hm _ (.head _)))⟩
  | ldr dr base off =>
    cases h; exact ⟨[], rfl, rfl, congrArg Host.Outcome.next (s.writeResult_withMem m dr (hm _ (.head _)))⟩
  | ldi dr off =>
    cases h
    have hword : m.read (indirect9 (s.withMem m) off) = s.readMem (indirect9 s off) := by
      rw [indirect9_withMem s m (hm _ (.head _))]
      exact hm _ (.tail _ (.head _))
    exact ⟨[], rfl, rfl, congrArg Host.Outcome.next (s.writeResult_withMem m dr hword)⟩
  | st sr off => cases h; exact ⟨[(pcRel9 s off, s.reg sr)], rfl, rfl, rfl⟩
  | str sr base off => cases h; exact ⟨[(baseOff6 s base off, s.reg sr)], rfl, rfl, rfl⟩
  | sti sr off =>
    cases h
    have haddr := indirect9_withMem s m (hm _ (.head _))
    exact ⟨[(indirect9 s off, s.reg sr)], rfl, rfl, congrArg Host.Outcome.next (s.writeMem_withMem m haddr _)⟩
  | br conds off =>
    cases h
    refine ⟨[], rfl, ?_, congrArg _ (s.branch_withMem m conds off)⟩
    rcases s.branch_cases conds off with ⟨-, hb⟩ | ⟨-, hb⟩ <;> rw [hb] <;> rfl
  | trapGetc =>
    simp only [exec, execTrapGetc] at h ⊢
    split at h
    · next b s' hb =>
      cases h
      rw [State.inByte_withMem, hb, State.inByte_frame hb]
      exact ⟨[], rfl, rfl, rfl⟩
    · cases h
  | trapIn =>
    simp only [exec, execTrapIn] at h ⊢
    split at h
    · next b s' hb =>
      cases h
      rw [show (s.withMem m).emitString _ = (s.emitString _).withMem m from rfl, State.inByte_withMem, hb,
        State.inByte_frame hb]
      exact ⟨[], rfl, rfl, rfl⟩
    · cases h
  | trapPuts =>
    obtain ⟨bs, hbs, rfl⟩ := exec_trapPuts_eq_next h
    rw [instrAccesses_trapPuts hbs] at hm ⊢
    refine ⟨[], (writeAddr_scanReads _ _).symm, rfl, ?_⟩
    have hscan : putsBytes (s.withMem m).mem Config.memoryWords ((s.withMem m).reg 0) = some bs := putsBytes_of_agree hbs hm
    simp only [exec, execTrapPuts, hscan]
    rfl
  | trapPutsp =>
    obtain ⟨bs, hbs, rfl⟩ := exec_trapPutsp_eq_next h
    rw [instrAccesses_trapPutsp hbs] at hm ⊢
    rw [Nat.add_div_right _ (by decide)] at hm
    refine ⟨[], (writeAddr_scanReads _ _).symm, rfl, ?_⟩
    have hscan : putspBytes (s.withMem m).mem Config.memoryWords ((s.withMem m).reg 0) = some bs :=
      putspBytes_of_agree hbs hm
    simp only [exec, execTrapPutsp, hscan]
    rfl
  | _ => cases h; exact ⟨[], rfl, rfl, rfl⟩

/-- The same of a step. -/
theorem step_withMem {s t : State} {m : Memory} (h : step s = .next t)
    (hm : ∀ a ∈ (cycleAccesses s).filterMap Access.readAddr, m.read a = s.readMem a) :
    ∃ writes, writes.map Prod.fst = (cycleAccesses s).filterMap Access.writeAddr ∧ t.mem = s.mem.writeAll writes ∧
      step (s.withMem m) = .next (t.withMem (m.writeAll writes)) := by
  rcases step_cases h with ⟨hrun, hexec⟩ | ⟨hrun, rfl⟩
  · rw [cycleAccesses_running hrun] at hm ⊢
    have hfetch : (s.withMem m).fetch = s.fetch := hm s.pc (.head _)
    rw [step_running (s := s.withMem m) hrun, hfetch]
    exact exec_withMem hexec fun a ha => hm a (.tail _ ha)
  · rw [cycleAccesses_stopped hrun]
    exact ⟨[], rfl, rfl, step_stopped (s := t.withMem m) hrun⟩

/-- Settles O41: memory after a step is memory with the listed writes made. -/
theorem stepWritesOnlyListedWords : Obligations.StepWritesOnlyListedWords := by
  intro s t h a ha
  obtain ⟨writes, haddr, hmem, -⟩ := step_withMem (m := s.mem) h fun _ _ => rfl
  rw [← mem_writeAddr_iff, ← haddr] at ha
  rw [State.readMem, hmem]
  exact s.mem.read_writeAll_of_not_mem ha

/-- Settles O42: the step makes the same writes to the other memory, and a word written is the same there. -/
theorem stepDependsOnlyOnListedWords : Obligations.StepDependsOnlyOnListedWords := by
  intro s t m h hm
  obtain ⟨writes, haddr, hmem, hstep⟩ := step_withMem h hm
  refine ⟨_, hstep, rfl, fun a => ?_⟩
  split
  · next ha =>
    rw [← mem_writeAddr_iff, ← haddr] at ha
    rw [State.readMem, State.readMem, hmem]
    exact m.read_writeAll_of_mem s.mem ha
  · next ha =>
    rw [← mem_writeAddr_iff, ← haddr] at ha
    exact m.read_writeAll_of_not_mem ha

/-! ## A store and the next fetch (R50, 10_state.md R35) -/

/-- Settles O43: the instruction is the word latched before the store, and the next fetch reads memory after it. -/
theorem storesAreFetchedByTheNextCycle : Obligations.StoresAreFetchedByTheNextCycle := by
  intro s sr a hrun hi
  have hstep : step s = .next (s.advancePc.writeMem a (s.reg sr)) := by
    rw [step_running hrun]
    rcases hi with ⟨off, hi, rfl⟩ | ⟨off, hi, rfl⟩ | ⟨b, off, hi, rfl⟩ <;> rw [hi] <;> rfl
  obtain ⟨hword, hother, hframe⟩ := s.advancePc.writeMem_spec a (s.reg sr)
  refine ⟨_, hstep, ⟨hword, hother, hframe⟩, fun hnext => ?_, fun hown => ?_⟩
  · have hfetch : (s.advancePc.writeMem a (s.reg sr)).fetch = s.reg sr := hnext ▸ hword
    have hrun' : (s.advancePc.writeMem a (s.reg sr)).run = .running := hrun
    refine ⟨hfetch, ?_⟩
    rw [step_running hrun', hfetch]
    rfl
  · subst hown
    exact ⟨hword, hother⟩

end Sys2Proof.Machine

/-! Proofs of the statements of 30_encoding.md. First the words the encoder packs and what they decode to; then two words
that agree on fields, which is what decoding alike (R75), the canonical words (R75) and the masks of the opcode table come
down to; then the fields as numbers (R62), and the step with STRICT_UNUSED_BITS. -/

namespace Sys2Proof.Machine

/-! ## The fields of an encoded word, format by format (R65 to R72) -/

section Packed

variable (op : Opcode) (d s t : Reg) (v : BitVec 8)

@[simp] theorem fields_wordAluR :
    opcodeOf (wordAluR op d s t) = op ∧ fieldDR (wordAluR op d s t) = d ∧ fieldSR1 (wordAluR op d s t) = s ∧
      fieldMode (wordAluR op d s t) = false ∧ field (wordAluR op d s t) 3 2 = 0b00#2 ∧ fieldSR2 (wordAluR op d s t) = t := by
  obtain ⟨hop, hd, hs, -, ht⟩ := field_aluR op.bits (Reg.bits d) (Reg.bits s) (Reg.bits t) 0b000#3
  have hmode := fieldMode_aluR op.bits (Reg.bits d) (Reg.bits s) 0b000#3 (Reg.bits t)
  have hx := field_unused_aluR op.bits (Reg.bits d) (Reg.bits s) (Reg.bits t)
  simp [wordAluR, opcodeOf, fieldDR, fieldSR1, fieldSR2, hop, hd, hs, ht, hmode, hx]

@[simp] theorem fields_wordAluI (o : BitVec 5) :
    opcodeOf (wordAluI op d s o) = op ∧ fieldDR (wordAluI op d s o) = d ∧ fieldSR1 (wordAluI op d s o) = s ∧
      fieldMode (wordAluI op d s o) = true ∧ fieldImm5 (wordAluI op d s o) = o := by
  obtain ⟨hop, hd, hs, hb, ho⟩ := field_aluI op.bits (Reg.bits d) (Reg.bits s) o 0b1#1
  simp [wordAluI, opcodeOf, fieldDR, fieldSR1, fieldMode_eq, fieldImm5, hop, hd, hs, hb, ho]

@[simp] theorem fields_wordNot :
    opcodeOf (wordNot d s) = .not ∧ fieldDR (wordNot d s) = d ∧ fieldSR1 (wordNot d s) = s ∧
      field (wordNot d s) 0 6 = 0b111111#6 := by
  obtain ⟨hop, hd, hs, hx⟩ := field_base6 Opcode.not.bits (Reg.bits d) (Reg.bits s) 0b111111#6
  simp [wordNot, opcodeOf, fieldDR, fieldSR1, hop, hd, hs, hx]

@[simp] theorem fields_wordPc9 (f : BitVec 3) (o : BitVec 9) :
    opcodeOf (wordPc9 op f o) = op ∧ fieldDR (wordPc9 op f o) = Reg.ofBits f ∧ fieldPCoffset9 (wordPc9 op f o) = o := by
  obtain ⟨hop, hf, ho⟩ := field_pc9 op.bits f o
  simp [wordPc9, opcodeOf, fieldDR, fieldPCoffset9, hop, hf, ho]

@[simp] theorem fields_wordPc11 (o : BitVec 11) :
    opcodeOf (wordPc11 o) = .jsr ∧ fieldL (wordPc11 o) = true ∧ fieldPCoffset11 (wordPc11 o) = o := by
  obtain ⟨hop, hl, ho⟩ := field_pc11 Opcode.jsr.bits o 0b1#1
  simp [wordPc11, opcodeOf, fieldL_eq, fieldPCoffset11, hop, hl, ho]

@[simp] theorem fields_wordBase :
    opcodeOf (wordBase op s) = op ∧ fieldSR1 (wordBase op s) = s ∧ fieldL (wordBase op s) = false ∧
      field (wordBase op s) 9 3 = 0b000#3 ∧ field (wordBase op s) 9 2 = 0b00#2 ∧ field (wordBase op s) 0 6 = 0b000000#6 := by
  obtain ⟨hop, hz, hs, hx⟩ := field_base6 op.bits 0b000#3 (Reg.bits s) 0b000000#6
  have hl := fieldL_base6 op.bits 0b000#3 (Reg.bits s) 0b000000#6
  have hy := field_unused_jsrr op.bits (Reg.bits s) 0b000000#6
  simp [wordBase, opcodeOf, fieldSR1, hop, hz, hs, hx, hl, hy]

@[simp] theorem fields_wordBase6 (o : BitVec 6) :
    opcodeOf (wordBase6 op d s o) = op ∧ fieldDR (wordBase6 op d s o) = d ∧ fieldSR1 (wordBase6 op d s o) = s ∧
      fieldOffset6 (wordBase6 op d s o) = o := by
  obtain ⟨hop, hd, hs, ho⟩ := field_base6 op.bits (Reg.bits d) (Reg.bits s) o
  simp [wordBase6, opcodeOf, fieldDR, fieldSR1, fieldOffset6, hop, hd, hs, ho]

@[simp] theorem fields_wordTrap :
    opcodeOf (wordTrap v) = .trap ∧ field (wordTrap v) 8 4 = 0b0000#4 ∧ fieldTrapvect8 (wordTrap v) = v := by
  obtain ⟨hop, hx, hv⟩ := field_trap Opcode.trap.bits 0x0#4 v
  simp [wordTrap, opcodeOf, fieldTrapvect8, hop, hx, hv]

@[simp] theorem opcodeOf_wordNone : opcodeOf (wordNone op) = op := by
  simp [wordNone, opcodeOf, (field_none op.bits 0#12).1]

end Packed

/-! ## Decoding an encoded instruction (R75, R77) -/

/-- The decoder inverts the encoder, BR and an invalid row with a valid vector apart. -/
theorem decodeWord_encode {i : Instr} (hwf : i.wf = true) (hdisp : i.dispatched = true) : decodeWord (encode i) = i := by
  cases i with
  | br => cases hdisp
  | trapInvalid v =>
    have hv : validTrapVector v = false := by simpa [Instr.wf] using hwf
    simp [decodeWord, encode, decodeTrap_invalid hv]
  | trapGetc | trapOut | trapPuts | trapIn | trapPutsp | trapHalt => simp [decodeWord, encode, decodeTrap]
  | _ => simp [decodeWord, encode]

/-- The encoder writes canonical unread bits. -/
theorem canonicalUnusedBits_encode (i : Instr) : canonicalUnusedBits (encode i) = true := by
  cases i <;> simp [canonicalUnusedBits, encode]

/-- Settles O1: the encoder writes each field where the decoder reads it, and its unread bits are the canonical ones, so
that STRICT_UNUSED_BITS refuses none of its words. -/
theorem decodeOfEncodeIsTheInstruction : Obligations.DecodeOfEncodeIsTheInstruction := by
  intro strict i hwf hdisp
  cases strict with
  | false => rw [decode_false, decodeWord_encode hwf hdisp]
  | true => rw [decode_true, if_pos (canonicalUnusedBits_encode i), decodeWord_encode hwf hdisp]

/-! ## What every word decodes to (R77) -/

theorem decodeTrap_wf_dispatched (v : BitVec 8) : (decodeTrap v).wf = true ∧ (decodeTrap v).dispatched = true := by
  revert v; decide

theorem decodeWord_wf_dispatched (w : Word) : (decodeWord w).wf = true ∧ (decodeWord w).dispatched = true := by
  unfold decodeWord
  cases opcodeOf w with
  | trap => exact decodeTrap_wf_dispatched _
  | add | and | jsr => dsimp only; split <;> exact ⟨rfl, rfl⟩
  | _ => exact ⟨rfl, rfl⟩

/-- Settles O2: without STRICT_UNUSED_BITS the decoder answers with `decodeWord`, and only `decodeTrap` can give a row that
`wf` constrains. -/
theorem everyWordDecodesToADispatchedInstruction : Obligations.EveryWordDecodesToADispatchedInstruction :=
  fun w => ⟨decodeWord w, decode_false w, decodeWord_wf_dispatched w⟩

/-! ## Words that agree on fields, and on the bits of a mask -/

/-- Two words have the same value in each of the fields `fs`, given as lowest bit and length. -/
def FieldsAgree (fs : List (Nat × Nat)) (w w' : Word) : Prop := ∀ f ∈ fs, field w f.1 f.2 = field w' f.1 f.2

/-- The bits of the mask `m` are those of the fields `fs`. -/
def Covers (m : Word) (fs : List (Nat × Nat)) : Prop := ∀ i < 16, m.getLsbD i = true ↔ ∃ f ∈ fs, f.1 ≤ i ∧ i < f.1 + f.2

section Agreement

variable {w w' : Word}

theorem field_eq_field_iff {lo len : Nat} :
    field w lo len = field w' lo len ↔ ∀ i, lo ≤ i → i < lo + len → w.getLsbD i = w'.getLsbD i := by
  constructor
  · intro h i hlo hi
    have hbit := congrArg (·.getLsbD (i - lo)) h
    have hlen : i - lo < len := by omega
    have hidx : lo + (i - lo) = i := by omega
    simpa [field, hlen, hidx] using hbit
  · intro h
    apply BitVec.eq_of_getLsbD_eq
    intro i hi
    simpa [field, hi] using h (lo + i) (by omega) (by omega)

theorem and_eq_and_iff {m : Word} : w &&& m = w' &&& m ↔ ∀ i < 16, m.getLsbD i = true → w.getLsbD i = w'.getLsbD i := by
  rw [BitVec.eq_of_getLsbD_eq_iff]
  refine forall₂_congr fun i _ => ?_
  rw [BitVec.getLsbD_and, BitVec.getLsbD_and]
  cases m.getLsbD i <;> simp

theorem xor_and_eq_zero_iff {m : Word} : (w ^^^ w') &&& m = 0 ↔ w &&& m = w' &&& m := by
  rw [and_eq_and_iff, BitVec.eq_of_getLsbD_eq_iff]
  refine forall₂_congr fun i _ => ?_
  rw [BitVec.getLsbD_and, BitVec.getLsbD_xor, BitVec.ofNat_eq_ofNat, BitVec.getLsbD_zero]
  cases m.getLsbD i <;> simp

/-- To agree on fields is to agree on the bits they cover. -/
theorem fieldsAgree_iff_and_eq_and {m : Word} {fs : List (Nat × Nat)} (hm : Covers m fs) :
    FieldsAgree fs w w' ↔ w &&& m = w' &&& m := by
  rw [and_eq_and_iff]
  constructor
  · intro h i hi hmi
    obtain ⟨f, hf, hlo, hhi⟩ := (hm i hi).mp hmi
    exact field_eq_field_iff.mp (h f hf) i hlo hhi
  · intro h f hf
    refine field_eq_field_iff.mpr fun i hlo hhi => ?_
    by_cases hi : i < 16
    · exact h i hi ((hm i hi).mpr ⟨f, hf, hlo, hhi⟩)
    · rw [BitVec.getLsbD_of_ge _ _ (by omega), BitVec.getLsbD_of_ge _ _ (by omega)]

theorem eq_of_fieldsAgree {fs : List (Nat × Nat)} (hall : Covers (BitVec.allOnes 16) fs) (h : FieldsAgree fs w w') : w = w' := by
  have hand := (fieldsAgree_iff_and_eq_and hall).mp h
  rwa [BitVec.and_allOnes, BitVec.and_allOnes] at hand

/-! Agreement on a field the decoder names is equality of the named field. -/

@[simp] theorem field_opcode_eq_iff : field w 12 4 = field w' 12 4 ↔ opcodeOf w = opcodeOf w' :=
  ⟨congrArg Opcode.ofBits, fun h => by simpa [opcodeOf] using congrArg Opcode.bits h⟩

@[simp] theorem field_DR_eq_iff : field w 9 3 = field w' 9 3 ↔ fieldDR w = fieldDR w' :=
  ⟨congrArg Reg.ofBits, congrArg Reg.bits⟩

@[simp] theorem field_SR1_eq_iff : field w 6 3 = field w' 6 3 ↔ fieldSR1 w = fieldSR1 w' :=
  ⟨congrArg Reg.ofBits, congrArg Reg.bits⟩

@[simp] theorem field_SR2_eq_iff : field w 0 3 = field w' 0 3 ↔ fieldSR2 w = fieldSR2 w' :=
  ⟨congrArg Reg.ofBits, congrArg Reg.bits⟩

theorem field_one_eq_iff (i : Nat) : field w i 1 = field w' i 1 ↔ w.getLsbD i = w'.getLsbD i := by
  rw [field_eq_field_iff]
  exact ⟨fun h => h i le_rfl (by omega), fun h j hj hj' => by rwa [show j = i by omega]⟩

@[simp] theorem field_mode_eq_iff : field w 5 1 = field w' 5 1 ↔ fieldMode w = fieldMode w' := field_one_eq_iff 5

@[simp] theorem field_L_eq_iff : field w 11 1 = field w' 11 1 ↔ fieldL w = fieldL w' := field_one_eq_iff 11

@[simp] theorem field_imm5_eq_iff : field w 0 5 = field w' 0 5 ↔ fieldImm5 w = fieldImm5 w' := .rfl

@[simp] theorem field_offset6_eq_iff : field w 0 6 = field w' 0 6 ↔ fieldOffset6 w = fieldOffset6 w' := .rfl

@[simp] theorem field_trapvect8_eq_iff : field w 0 8 = field w' 0 8 ↔ fieldTrapvect8 w = fieldTrapvect8 w' := .rfl

@[simp] theorem field_PCoffset9_eq_iff : field w 0 9 = field w' 0 9 ↔ fieldPCoffset9 w = fieldPCoffset9 w' := .rfl

@[simp] theorem field_PCoffset11_eq_iff : field w 0 11 = field w' 0 11 ↔ fieldPCoffset11 w = fieldPCoffset11 w' := .rfl

end Agreement

/-! ## The fields an instruction's format reads (R75) -/

/-- The fields that the format of an instruction reads (R62 to R72), the opcode first. -/
def readFields : Instr → List (Nat × Nat)
  | .sentinel | .rti | .res => [(12, 4)]
  | .addReg .. | .andReg .. => [(12, 4), (9, 3), (6, 3), (5, 1), (0, 3)]
  | .addImm .. | .andImm .. => [(12, 4), (9, 3), (6, 3), (5, 1), (0, 5)]
  | .br .. | .ld .. | .st .. | .ldi .. | .sti .. | .lea .. => [(12, 4), (9, 3), (0, 9)]
  | .ldr .. | .str .. => [(12, 4), (9, 3), (6, 3), (0, 6)]
  | .not .. => [(12, 4), (9, 3), (6, 3)]
  | .jmp .. => [(12, 4), (6, 3)]
  | .jsrr .. => [(12, 4), (11, 1), (6, 3)]
  | .jsr .. => [(12, 4), (11, 1), (0, 11)]
  | .trapGetc | .trapOut | .trapPuts | .trapIn | .trapPutsp | .trapHalt | .trapInvalid .. => [(12, 4), (0, 8)]

theorem opcode_mem_readFields (i : Instr) : (12, 4) ∈ readFields i := by cases i <;> exact .head _

@[simp] theorem readFields_decodeTrap (v : BitVec 8) : readFields (decodeTrap v) = [(12, 4), (0, 8)] := by
  revert v; decide

@[simp] theorem encode_decodeTrap (v : BitVec 8) : encode (decodeTrap v) = wordTrap v := by revert v; decide

/-- The read bits are those outside the mask of R75. -/
theorem covers_readFields (w : Word) : Covers (~~~unusedMask w) (readFields (decodeWord w)) := by
  unfold Covers unusedMask decodeWord
  cases hop : opcodeOf w with
  | trap => simp only [readFields_decodeTrap]; decide
  | add | and => cases hmode : fieldMode w <;> (simp only [readFields, Bool.false_eq_true, ↓reduceIte]; decide)
  | jsr => cases hl : fieldL w <;> (simp only [readFields, Bool.false_eq_true, ↓reduceIte]; decide)
  | _ => simp only [readFields]; decide

/-- Encoding a word's instruction gives the word's read fields back. -/
theorem fieldsAgree_encode_decodeWord (w : Word) : FieldsAgree (readFields (decodeWord w)) (encode (decodeWord w)) w := by
  unfold FieldsAgree decodeWord
  cases hop : opcodeOf w with
  | trap => simp [hop]
  | add | and => cases hmode : fieldMode w <;> simp [readFields, encode, hop, hmode]
  | jsr => cases hl : fieldL w <;> simp [readFields, encode, hop, hl]
  | _ => simp [readFields, encode, hop]

theorem opcodeOf_encode_decodeWord (w : Word) : opcodeOf (encode (decodeWord w)) = opcodeOf w :=
  field_opcode_eq_iff.mp (fieldsAgree_encode_decodeWord w _ (opcode_mem_readFields _))

/-- The decoder looks at nothing but the read fields. -/
theorem decodeWord_eq_of_fieldsAgree {w w' : Word} :
    FieldsAgree (readFields (decodeWord w')) w w' → decodeWord w = decodeWord w' := by
  unfold FieldsAgree
  cases hop : opcodeOf w' with
  | trap => simp +contextual [decodeWord, hop]
  | add | and => cases hmode : fieldMode w' <;> simp +contextual [decodeWord, readFields, hop, hmode]
  | jsr => cases hl : fieldL w' <;> simp +contextual [decodeWord, readFields, hop, hl]
  | _ => simp +contextual [decodeWord, readFields, hop]

/-- It looks at all of them: two words of one instruction agree with its encoding there. -/
theorem decodeWord_eq_iff {w w' : Word} : decodeWord w = decodeWord w' ↔ FieldsAgree (readFields (decodeWord w')) w w' := by
  refine ⟨fun h f hf => ?_, decodeWord_eq_of_fieldsAgree⟩
  rw [← fieldsAgree_encode_decodeWord w' f hf, ← h]
  exact (fieldsAgree_encode_decodeWord w f (h ▸ hf)).symm

/-- Settles O3: decoding alike is agreeing on the read fields, and these cover the bits outside the mask. -/
theorem wordsDecodeAlikeExactlyWhenReadBitsAgree : Obligations.WordsDecodeAlikeExactlyWhenReadBitsAgree := by
  intro w w'
  rw [decode_false, decode_false, Except.ok.injEq, eq_comm, decodeWord_eq_iff, fieldsAgree_iff_and_eq_and (covers_readFields w),
    eq_comm, xor_and_eq_zero_iff]

/-! ## Canonical words (R75) -/

/-- The bits of an instruction's format that no field reads, as lowest bit and length (R75). -/
def unreadFields : Instr → List (Nat × Nat)
  | .sentinel | .rti | .res => [(0, 12)]
  | .addReg .. | .andReg .. => [(3, 2)]
  | .not .. => [(0, 6)]
  | .jmp .. => [(9, 3), (0, 6)]
  | .jsrr .. => [(9, 2), (0, 6)]
  | .trapGetc | .trapOut | .trapPuts | .trapIn | .trapPutsp | .trapHalt | .trapInvalid .. => [(8, 4)]
  | .br .. | .addImm .. | .andImm .. | .ld .. | .st .. | .ldi .. | .sti .. | .lea .. | .ldr .. | .str .. | .jsr .. => []

@[simp] theorem unreadFields_decodeTrap (v : BitVec 8) : unreadFields (decodeTrap v) = [(8, 4)] := by
  revert v; decide

/-- What no field reads, and what some field reads, is every bit of the word. -/
theorem covers_all_fields (i : Instr) : Covers (BitVec.allOnes 16) (readFields i ++ unreadFields i) := by
  unfold Covers
  cases i <;> (simp only [readFields, unreadFields]; decide)

/-- The instructions of format NONE (R72). -/
def IsFormatNone (i : Instr) : Prop := i = .sentinel ∨ i = .rti ∨ i = .res

/-- The unread bits of a canonical word are those the encoder writes, unless its format is NONE (log entry 5). -/
theorem fieldsAgree_unreadFields {w : Word} (h : canonicalUnusedBits w = true) :
    FieldsAgree (unreadFields (decodeWord w)) (encode (decodeWord w)) w ∨ IsFormatNone (decodeWord w) := by
  unfold canonicalUnusedBits at h
  unfold FieldsAgree decodeWord
  cases hop : opcodeOf w with
  | sentinel => exact .inr (.inl rfl)
  | rti => exact .inr (.inr (.inl rfl))
  | res => exact .inr (.inr (.inr rfl))
  | trap =>
    have hx : field w 8 4 = 0b0000#4 := by simpa [hop] using h
    simp [hx]
  | add | and =>
    left
    cases hmode : fieldMode w with
    | true => simp [unreadFields]
    | false =>
      have hx : field w 3 2 = 0b00#2 := by simpa [hop, hmode] using h
      simp [unreadFields, encode, hx]
  | jsr =>
    left
    cases hl : fieldL w with
    | true => simp [unreadFields]
    | false =>
      obtain ⟨hx, hy⟩ : field w 9 2 = 0b00#2 ∧ field w 0 6 = 0b000000#6 := by simpa [hop, hl] using h
      simp [unreadFields, encode, hx, hy]
  | not =>
    have hx : field w 0 6 = 0b111111#6 := by simpa [hop] using h
    simp [unreadFields, encode, hx]
  | jmp =>
    obtain ⟨hx, hy⟩ : field w 9 3 = 0b000#3 ∧ field w 0 6 = 0b000000#6 := by simpa [hop] using h
    simp [unreadFields, encode, hx, hy]
  | ld | st | ldi | sti | lea | ldr | str => simp [unreadFields]

theorem canonicalUnusedBits_of_formatNone {w : Word} (h : IsFormatNone (decodeWord w)) : canonicalUnusedBits w = true := by
  unfold canonicalUnusedBits
  rw [← opcodeOf_encode_decodeWord]
  rcases h with h | h | h <;> rw [h] <;> rfl

/-- A word has canonical unread bits exactly when it is its instruction's encoding or of format NONE: the read and the
unread fields together are the whole word. -/
theorem canonicalUnusedBits_iff (w : Word) :
    canonicalUnusedBits w = true ↔ encode (decodeWord w) = w ∨ IsFormatNone (decodeWord w) := by
  constructor
  · intro h
    refine (fieldsAgree_unreadFields h).imp_left fun hunread => ?_
    exact eq_of_fieldsAgree (covers_all_fields _) (List.forall_mem_append.mpr ⟨fieldsAgree_encode_decodeWord w, hunread⟩)
  · rintro (h | h)
    · rw [← h]
      exact canonicalUnusedBits_encode _
    · exact canonicalUnusedBits_of_formatNone h

/-- Settles O4: STRICT_UNUSED_BITS refuses by `canonicalUnusedBits`, which holds of exactly these words. -/
theorem strictDecodingAcceptsOnlyCanonicalWords : Obligations.StrictDecodingAcceptsOnlyCanonicalWords := by
  intro w i
  rw [decode_true]
  split
  · next h =>
    rw [Except.ok.injEq, iff_self_and]
    rintro rfl
    exact (canonicalUnusedBits_iff w).mp h
  · next h =>
    refine iff_of_false nofun ?_
    rintro ⟨rfl, hi⟩
    exact h ((canonicalUnusedBits_iff w).mpr hi)

/-! ## The opcode table (spec/opcode_table.json) -/

/-- The rows of one opcode, in the table's order. -/
def rowsOf (op : Opcode) : List OpcodeRow := opcodeRows.filter fun r => field r.pattern 12 4 == op.bits

section Rows

variable {w : Word} {r : OpcodeRow}

/-- Every mask holds the opcode's four bits, so a row that matches is one of the word's opcode. -/
theorem pattern_opcode_of_matches (hr : r ∈ opcodeRows) (h : r.matches w = true) : field r.pattern 12 4 = field w 12 4 := by
  have hmask : ∀ r ∈ opcodeRows, field r.mask 12 4 = BitVec.allOnes 4 := by decide
  rw [OpcodeRow.matches, beq_iff_eq] at h
  calc field r.pattern 12 4
    _ = field (w &&& r.mask) 12 4 := by rw [h]
    _ = field w 12 4 &&& field r.mask 12 4 := BitVec.extractLsb'_and
    _ = field w 12 4 := by rw [hmask r hr, BitVec.and_allOnes]

theorem find?_opcodeRows (w : Word) :
    opcodeRows.find? (fun r => r.matches w) = (rowsOf (opcodeOf w)).find? (fun r => r.matches w) := by
  rw [rowsOf, List.find?_filter]
  refine List.find?_congr fun r hr => ?_
  cases h : r.matches w with
  | false => simp
  | true => simp [pattern_opcode_of_matches hr h, opcodeOf]

/-- A row matches the words that agree with its pattern on the fields of its mask. -/
theorem matches_iff_fieldsAgree {fs : List (Nat × Nat)} (hr : r ∈ opcodeRows) (hm : Covers r.mask fs) :
    r.matches w = true ↔ FieldsAgree fs w r.pattern := by
  have hp : ∀ r ∈ opcodeRows, r.pattern &&& r.mask = r.pattern := by decide
  rw [fieldsAgree_iff_and_eq_and hm, hp r hr, OpcodeRow.matches, beq_iff_eq]

theorem covers_opcode : Covers 0xF000 [(12, 4)] := by unfold Covers; decide
theorem covers_opcode_mode : Covers 0xF020 [(12, 4), (5, 1)] := by unfold Covers; decide
theorem covers_opcode_L : Covers 0xF800 [(12, 4), (11, 1)] := by unfold Covers; decide
theorem covers_opcode_vector : Covers 0xF0FF [(12, 4), (0, 8)] := by unfold Covers; decide

theorem matches_iff_opcode (hr : r ∈ opcodeRows) (hm : r.mask = 0xF000) :
    r.matches w = true ↔ opcodeOf w = opcodeOf r.pattern := by
  rw [matches_iff_fieldsAgree hr (hm ▸ covers_opcode)]
  simp [FieldsAgree]

theorem matches_iff_opcode_mode (hr : r ∈ opcodeRows) (hm : r.mask = 0xF020) :
    r.matches w = true ↔ opcodeOf w = opcodeOf r.pattern ∧ fieldMode w = fieldMode r.pattern := by
  rw [matches_iff_fieldsAgree hr (hm ▸ covers_opcode_mode)]
  simp [FieldsAgree]

theorem matches_iff_opcode_L (hr : r ∈ opcodeRows) (hm : r.mask = 0xF800) :
    r.matches w = true ↔ opcodeOf w = opcodeOf r.pattern ∧ fieldL w = fieldL r.pattern := by
  rw [matches_iff_fieldsAgree hr (hm ▸ covers_opcode_L)]
  simp [FieldsAgree]

end Rows

/-- A word of opcode TRAP matches the rows that the canonical word of its vector matches. -/
theorem find?_trapRows {w : Word} (hop : opcodeOf w = .trap) :
    (rowsOf .trap).find? (fun r => r.matches w) =
      (rowsOf .trap).find? fun r => r.matches (wordTrap (fieldTrapvect8 w)) := by
  have hmask : ∀ r ∈ rowsOf .trap, r.mask = 0xF0FF &&& r.mask := by decide
  have hw : w &&& 0xF0FF = wordTrap (fieldTrapvect8 w) &&& 0xF0FF := by
    rw [← fieldsAgree_iff_and_eq_and covers_opcode_vector]
    simp [FieldsAgree, hop]
  refine List.find?_congr fun r hr => ?_
  rw [OpcodeRow.matches, OpcodeRow.matches, hmask r hr, ← BitVec.and_assoc, hw, BitVec.and_assoc]

/-- The first row that a vector's word matches is the row of the vector's instruction (R71). -/
theorem find?_trapRows_wordTrap : ∀ v : BitVec 8, ∃ r ∈ rowsOf .trap,
    (rowsOf .trap).find? (fun r => r.matches (wordTrap v)) = some r ∧ r.dispatched = true ∧
      (decodeTrap v).row = (r.mnemonic, r.format) := by
  decide

/-- Settles O5: only the rows of the word's opcode can match, and the mode bit, the L bit or the vector picks the one the
decoder picks. -/
theorem decodingFollowsTheOpcodeTable : Obligations.DecodingFollowsTheOpcodeTable := by
  intro w
  rw [find?_opcodeRows]
  unfold decodeWord
  cases hop : opcodeOf w with
  | trap =>
    obtain ⟨r, -, hfind, hrow⟩ := find?_trapRows_wordTrap (fieldTrapvect8 w)
    exact ⟨r, (find?_trapRows hop).trans hfind, hrow⟩
  | add | and =>
    cases hmode : fieldMode w with
    | false => exact ⟨_, List.find?_cons_of_pos ((matches_iff_opcode_mode (by decide) rfl).mpr ⟨hop, hmode⟩), rfl, rfl⟩
    | true =>
      refine ⟨_, (List.find?_cons_of_neg ?_).trans (List.find?_cons_of_pos ?_), rfl, rfl⟩
      · rw [matches_iff_opcode_mode (by decide) rfl, hmode]
        exact fun h => nomatch h.2
      · exact (matches_iff_opcode_mode (by decide) rfl).mpr ⟨hop, hmode⟩
  | jsr =>
    cases hl : fieldL w with
    | false => exact ⟨_, List.find?_cons_of_pos ((matches_iff_opcode_L (by decide) rfl).mpr ⟨hop, hl⟩), rfl, rfl⟩
    | true =>
      refine ⟨_, (List.find?_cons_of_neg ?_).trans (List.find?_cons_of_pos ?_), rfl, rfl⟩
      · rw [matches_iff_opcode_L (by decide) rfl, hl]
        exact fun h => nomatch h.2
      · exact (matches_iff_opcode_L (by decide) rfl).mpr ⟨hop, hl⟩
  | _ => exact ⟨_, List.find?_cons_of_pos ((matches_iff_opcode (by decide) rfl).mpr hop), rfl, rfl⟩

/-! ## Fields as numbers (R62 to R72) -/

section Numbers

variable {w : Word}

theorem opcodeOf_eq_of_toNat (op : Opcode) (h : w.toNat / 2 ^ 12 % 2 ^ 4 = op.bits.toNat) : opcodeOf w = op := by
  rw [← toNat_field, BitVec.toNat_inj] at h
  rw [opcodeOf, h, Opcode.ofBits_bits]

theorem getLsbD_eq_of_toNat {i : Nat} (b : Bool) (h : w.toNat / 2 ^ i % 2 = b.toNat) : w.getLsbD i = b := by
  rw [getLsbD_eq_decide, h]
  cases b <;> rfl

theorem fieldMode_eq_of_toNat (b : Bool) (h : w.toNat / 2 ^ 5 % 2 = b.toNat) : fieldMode w = b := getLsbD_eq_of_toNat b h

theorem fieldL_eq_of_toNat (b : Bool) (h : w.toNat / 2 ^ 11 % 2 = b.toNat) : fieldL w = b := getLsbD_eq_of_toNat b h

theorem decodeWord_of_trapvect8 (v : BitVec 8) (h : w.toNat / 2 ^ 12 % 2 ^ 4 = Opcode.trap.bits.toNat)
    (hv : w.toNat / 2 ^ 0 % 2 ^ 8 = v.toNat) : decodeWord w = decodeTrap v := by
  rw [← toNat_field, BitVec.toNat_inj] at hv
  rw [decodeWord, opcodeOf_eq_of_toNat .trap h, ← hv]
  rfl

theorem decodeWord_of_invalid_trapvect8 (h : w.toNat / 2 ^ 12 % 2 ^ 4 = Opcode.trap.bits.toNat)
    (hv : w.toNat / 2 ^ 0 % 2 ^ 8 < 0x20 ∨ 0x25 < w.toNat / 2 ^ 0 % 2 ^ 8) :
    decodeWord w = .trapInvalid (fieldTrapvect8 w) := by
  rw [decodeWord_of_trapvect8 (fieldTrapvect8 w) h (toNat_field w 0 8).symm, decodeTrap_invalid]
  rw [← toNat_field] at hv
  simp only [validTrapVector, Bool.and_eq_false_iff, decide_eq_false_iff_not]
  exact hv.imp Nat.not_le.mpr Nat.not_le.mpr

end Numbers

/-- Settles O6: the opcode's number fixes the decoder's branch, and each field is its bits as a number. -/
theorem fieldsAreReadWhereTheFormatsPutThem : Obligations.FieldsAreReadWhereTheFormatsPutThem := by
  intro w bits op
  refine ⟨fun h => ?_, fun h hm => ?_, fun h hm => ?_, fun h => ?_, fun h => ?_, fun h hl => ?_, fun h hl => ?_,
    fun h hm => ?_, fun h hm => ?_, fun h => ?_, fun h => ?_, fun h => ?_, fun h => ?_, fun h => ?_, fun h => ?_,
    fun h => ?_, fun h => ?_, fun h => ?_, decodeWord_of_trapvect8 0x20, decodeWord_of_trapvect8 0x21,
    decodeWord_of_trapvect8 0x22, decodeWord_of_trapvect8 0x23, decodeWord_of_trapvect8 0x24,
    decodeWord_of_trapvect8 0x25, fun h hv => ⟨_, decodeWord_of_invalid_trapvect8 h hv, toNat_field w 0 8⟩⟩
  · rw [decodeWord, opcodeOf_eq_of_toNat .sentinel h]
  · rw [decodeWord, opcodeOf_eq_of_toNat .add h, fieldMode_eq_of_toNat false hm]
    exact ⟨_, _, _, rfl, toNat_field w 9 3, toNat_field w 6 3, toNat_field w 0 3⟩
  · rw [decodeWord, opcodeOf_eq_of_toNat .add h, fieldMode_eq_of_toNat true hm]
    exact ⟨_, _, _, rfl, toNat_field w 9 3, toNat_field w 6 3, toNat_field w 0 5⟩
  · rw [decodeWord, opcodeOf_eq_of_toNat .ld h]
    exact ⟨_, _, rfl, toNat_field w 9 3, toNat_field w 0 9⟩
  · rw [decodeWord, opcodeOf_eq_of_toNat .st h]
    exact ⟨_, _, rfl, toNat_field w 9 3, toNat_field w 0 9⟩
  · rw [decodeWord, opcodeOf_eq_of_toNat .jsr h, fieldL_eq_of_toNat true hl]
    exact ⟨_, rfl, toNat_field w 0 11⟩
  · rw [decodeWord, opcodeOf_eq_of_toNat .jsr h, fieldL_eq_of_toNat false hl]
    exact ⟨_, rfl, toNat_field w 6 3⟩
  · rw [decodeWord, opcodeOf_eq_of_toNat .and h, fieldMode_eq_of_toNat false hm]
    exact ⟨_, _, _, rfl, toNat_field w 9 3, toNat_field w 6 3, toNat_field w 0 3⟩
  · rw [decodeWord, opcodeOf_eq_of_toNat .and h, fieldMode_eq_of_toNat true hm]
    exact ⟨_, _, _, rfl, toNat_field w 9 3, toNat_field w 6 3, toNat_field w 0 5⟩
  · rw [decodeWord, opcodeOf_eq_of_toNat .ldr h]
    exact ⟨_, _, _, rfl, toNat_field w 9 3, toNat_field w 6 3, toNat_field w 0 6⟩
  · rw [decodeWord, opcodeOf_eq_of_toNat .str h]
    exact ⟨_, _, _, rfl, toNat_field w 9 3, toNat_field w 6 3, toNat_field w 0 6⟩
  · rw [decodeWord, opcodeOf_eq_of_toNat .rti h]
  · rw [decodeWord, opcodeOf_eq_of_toNat .not h]
    exact ⟨_, _, rfl, toNat_field w 9 3, toNat_field w 6 3⟩
  · rw [decodeWord, opcodeOf_eq_of_toNat .ldi h]
    exact ⟨_, _, rfl, toNat_field w 9 3, toNat_field w 0 9⟩
  · rw [decodeWord, opcodeOf_eq_of_toNat .sti h]
    exact ⟨_, _, rfl, toNat_field w 9 3, toNat_field w 0 9⟩
  · rw [decodeWord, opcodeOf_eq_of_toNat .jmp h]
    exact ⟨_, rfl, toNat_field w 6 3⟩
  · rw [decodeWord, opcodeOf_eq_of_toNat .res h]
  · rw [decodeWord, opcodeOf_eq_of_toNat .lea h]
    exact ⟨_, _, rfl, toNat_field w 9 3, toNat_field w 0 9⟩

/-- Settles O7: the decoder computes on each word. -/
theorem specWordsDecode : Obligations.SpecWordsDecode :=
  ⟨rfl, rfl, rfl, rfl, rfl, rfl, rfl, rfl, rfl, rfl, rfl, rfl⟩

/-! ## A step with STRICT_UNUSED_BITS (R75) -/

theorem word_of_decode_true_error {w w' : Word} (h : decode true w = .error (.nonCanonicalUnusedBits w')) : w' = w := by
  rw [decode_true] at h
  split at h <;> cases h
  rfl

/-- Settles O31: a running core's step is its cycle, which is settled by the decoder's answer. -/
theorem strictStepRunsOrRefuses : Obligations.StrictStepRunsOrRefuses :=
  ⟨fun _ _ hrun hd => (stepWith_running hrun).trans (cycle_of_decode hd),
    fun _ _ hrun hd => ⟨word_of_decode_true_error hd, (stepWith_running hrun).trans (cycle_of_error hd)⟩⟩

end Sys2Proof.Machine

/-! Proofs of the statements of 40_dispatch.md: the opcodes by number, then the cycles of the sentinel (R91) and of the two
reserved opcodes (R93, R94), then the cycle of any word (R90). -/

namespace Sys2Proof.Machine

/-! ## The opcode by its number, and the instructions of format NONE (30_encoding.md R70, R72) -/

theorem opcodeOf_eq_iff (w : Word) (op : Opcode) : opcodeOf w = op ↔ w.toNat / 2 ^ 12 = op.bits.toNat := by
  rw [← opcodeOf_bits_toNat, BitVec.toNat_inj]
  exact ⟨congrArg Opcode.bits, fun h => by simpa using congrArg Opcode.ofBits h⟩

theorem decodeWord_eq_sentinel {w : Word} (h : w.toNat / 2 ^ 12 = 0) : decodeWord w = .sentinel := by
  rw [decodeWord, (opcodeOf_eq_iff w .sentinel).mpr h]

theorem decodeWord_eq_rti {w : Word} (h : w.toNat / 2 ^ 12 = 8) : decodeWord w = .rti := by
  rw [decodeWord, (opcodeOf_eq_iff w .rti).mpr h]

theorem decodeWord_eq_res {w : Word} (h : w.toNat / 2 ^ 12 = 13) : decodeWord w = .res := by
  rw [decodeWord, (opcodeOf_eq_iff w .res).mpr h]

/-! ## Their meanings (R91, R93, R94) -/

theorem exec_sentinel (s : State) : exec .sentinel s = .next (s.halt .sentinel) := rfl

theorem exec_rti (s : State) : exec .rti s = .next s := rfl

theorem exec_res (s : State) : exec .res s = .next s := rfl

/-- What halting does, whole: the run stops, and nothing else changes or is emitted. -/
theorem State.halt_spec (s : State) (reason : HaltReason) : StopsAs (.halted reason) [] s (s.halt reason) :=
  ⟨rfl, (List.append_nil s.output).symm, fun _ => rfl, rfl, rfl, fun _ => rfl, rfl⟩

/-! ## Their cycles -/

/-- The increment of PC is modulo 2^16 (10_state.md R24). -/
theorem State.advancePc_eq (s : State) :
    s.advancePc = { s with pc := BitVec.ofNat 16 ((s.pc.toNat + 1) % 2 ^ 16) } := by
  have hpc : s.pc + 1 = BitVec.ofNat 16 ((s.pc.toNat + 1) % 2 ^ 16) := by
    apply BitVec.eq_of_toNat_eq
    simp
  rw [State.advancePc, hpc]
  rfl

theorem step_of_opcode_sentinel {s : State} (hrun : s.run = .running) (h : s.fetch.toNat / 2 ^ 12 = 0) :
    step s = .next (s.advancePc.halt .sentinel) := by
  rw [step_running hrun, decodeWord_eq_sentinel h, exec_sentinel]

theorem step_of_opcode_reserved {s : State} (hrun : s.run = .running)
    (h : s.fetch.toNat / 2 ^ 12 = 8 ∨ s.fetch.toNat / 2 ^ 12 = 13) : step s = .next s.advancePc := by
  rw [step_running hrun]
  rcases h with h | h
  · rw [decodeWord_eq_rti h, exec_rti]
  · rw [decodeWord_eq_res h, exec_res]

/-- Settles O35: a word below 0x1000 has opcode 0, so its cycle is the sentinel's. -/
theorem everyBranchWordHaltsTheCore : Obligations.EveryBranchWordHaltsTheCore :=
  fun _ hrun hlt => step_of_opcode_sentinel hrun (Nat.div_eq_of_lt hlt)

/-- Settles O20: the sentinel is the halt, whose effect is `State.halt_spec`. -/
theorem sentinelHaltsAndChangesNothingElse : Obligations.SentinelHaltsAndChangesNothingElse :=
  fun s => ⟨s.halt .sentinel, exec_sentinel s, s.halt_spec .sentinel⟩

/-- Settles O21: RTI and RES do nothing, so a cycle of either leaves what the fetch left. -/
theorem reservedOpcodesOnlyAdvancePc : Obligations.ReservedOpcodesOnlyAdvancePc := by
  refine ⟨fun s => ⟨exec_rti s, exec_res s⟩, fun s hrun hop => ?_⟩
  rw [← State.advancePc_eq]
  exact step_of_opcode_reserved hrun hop

/-- Settles O30: a running core's step is its cycle, which runs what the decoder answers after the increment of PC. -/
theorem stepRunsTheDecodedInstruction : Obligations.StepRunsTheDecodedInstruction := by
  refine ⟨fun s i hrun hd => ?_, fun s hrun hop => ?_⟩
  · rw [← State.advancePc_eq]
    exact (stepWith_running hrun).trans (cycle_of_decode hd)
  · have hhalt : step s = .next (s.advancePc.halt .sentinel) := step_of_opcode_sentinel hrun hop
    rwa [State.advancePc_eq] at hhalt

end Sys2Proof.Machine

/-! Proofs of the statements of 41_alu.md: the meanings of ADD, AND and NOT (R100 to R104), the sum and the complement as
numbers, then the statements. That DR may equal a source (R105) costs nothing: every meaning computes its result in the state
before the write, and `State.writeResult_spec` gives the whole effect of that write. -/

namespace Sys2Proof.Machine

/-! ## The meanings (R100 to R104) -/

section Meanings

variable (dr sr1 sr2 : Reg) (imm : BitVec 5) (s : State)

theorem exec_addReg : exec (.addReg dr sr1 sr2) s = .next (s.writeResult dr (s.reg sr1 + s.reg sr2)) := rfl

theorem exec_addImm : exec (.addImm dr sr1 imm) s = .next (s.writeResult dr (s.reg sr1 + sext imm)) := rfl

theorem exec_andReg : exec (.andReg dr sr1 sr2) s = .next (s.writeResult dr (s.reg sr1 &&& s.reg sr2)) := rfl

theorem exec_andImm : exec (.andImm dr sr1 imm) s = .next (s.writeResult dr (s.reg sr1 &&& sext imm)) := rfl

theorem exec_not : exec (.not dr sr1) s = .next (s.writeResult dr (~~~ s.reg sr1)) := rfl

end Meanings

/-! ## The results as numbers -/

/-- Addition of words is modulo 2^16 (R100). -/
theorem add_eq_ofNat (a b : Word) : a + b = BitVec.ofNat 16 ((a.toNat + b.toNat) % 2 ^ 16) := by
  apply BitVec.eq_of_toNat_eq
  rw [BitVec.toNat_add, BitVec.toNat_ofNat, Nat.mod_mod]

/-- The complement of a word is its distance from 0xFFFF (R104). -/
theorem not_eq_ofNat (a : Word) : ~~~ a = BitVec.ofNat 16 (0xFFFF - a.toNat) := by
  apply BitVec.eq_of_toNat_eq
  rw [BitVec.toNat_not, BitVec.toNat_ofNat, Nat.mod_eq_of_lt (by omega)]

/-! ## The statements -/

/-- Settles O11: both modes write the sum of the sources as words, which is their sum modulo 2^16. -/
theorem addCompletesWithTheSum : Obligations.AddCompletesWithTheSum := by
  refine ⟨fun dr sr1 sr2 s => ⟨_, exec_addReg dr sr1 sr2 s, ?_⟩, fun dr sr1 imm s => ⟨_, exec_addImm dr sr1 imm s, ?_⟩⟩
  · rw [← add_eq_ofNat]
    exact s.writeResult_spec dr _
  · rw [← add_eq_ofNat]
    exact s.writeResult_spec dr _

/-- Settles O12: both modes write the conjunction of the sources as words, whose bits are the conjunctions of their bits. -/
theorem andCompletesWithTheConjunction : Obligations.AndCompletesWithTheConjunction :=
  ⟨fun dr sr1 sr2 s =>
    ⟨_, _, exec_andReg dr sr1 sr2 s, fun _ _ => BitVec.getLsbD_and, s.writeResult_spec dr _⟩,
   fun dr sr1 imm s =>
    ⟨_, _, exec_andImm dr sr1 imm s, fun _ _ => BitVec.getLsbD_and, s.writeResult_spec dr _⟩⟩

/-- Settles O13: NOT writes the complement of its source, which is 0xFFFF less the source. -/
theorem notCompletesWithTheComplement : Obligations.NotCompletesWithTheComplement := by
  refine fun dr sr1 s => ⟨_, exec_not dr sr1 s, ?_⟩
  rw [← not_eq_ofNat]
  exact s.writeResult_spec dr _

end Sys2Proof.Machine

/-! Proofs of the statements of 42_load_store.md: the meanings of the loads, LEA and the stores with their effective addresses
written out as R110 gives them, then the statements. Every meaning computes its address and its value in the state before the
write, so DR may equal BaseR (R115); `State.writeResult_spec` and `State.writeMem_spec` give the whole effect of the write. -/

namespace Sys2Proof.Machine

/-! ## The meanings (R110 to R117) -/

section LoadStoreMeanings

variable (dr sr base : Reg) (off9 : BitVec 9) (off6 : BitVec 6) (s : State)

theorem exec_ld : exec (.ld dr off9) s = .next (s.writeResult dr (s.readMem (s.pc + sext off9))) := rfl

theorem exec_ldi : exec (.ldi dr off9) s = .next (s.writeResult dr (s.readMem (s.readMem (s.pc + sext off9)))) := rfl

theorem exec_ldr : exec (.ldr dr base off6) s = .next (s.writeResult dr (s.readMem (s.reg base + sext off6))) := rfl

theorem exec_lea : exec (.lea dr off9) s = .next (s.writeResult dr (s.pc + sext off9)) := rfl

theorem exec_st : exec (.st sr off9) s = .next (s.writeMem (s.pc + sext off9) (s.reg sr)) := rfl

theorem exec_sti : exec (.sti sr off9) s = .next (s.writeMem (s.readMem (s.pc + sext off9)) (s.reg sr)) := rfl

theorem exec_str : exec (.str sr base off6) s = .next (s.writeMem (s.reg base + sext off6) (s.reg sr)) := rfl

end LoadStoreMeanings

/-! ## The statements -/

/-- Settles O14: each load writes, as its result, the word read at its effective address. -/
theorem loadsCompleteWithTheWordAtTheAddress : Obligations.LoadsCompleteWithTheWordAtTheAddress :=
  ⟨fun dr off s => ⟨_, exec_ld dr off s, s.writeResult_spec dr _⟩,
   fun dr off s => ⟨_, exec_ldi dr off s, s.writeResult_spec dr _⟩,
   fun dr base off s => ⟨_, exec_ldr dr base off s, s.writeResult_spec dr _⟩⟩

/-- Settles O15: LEA writes, as its result, the PC-relative address itself. -/
theorem leaCompletesWithTheAddress : Obligations.LeaCompletesWithTheAddress :=
  fun dr off s => ⟨_, exec_lea dr off s, s.writeResult_spec dr _⟩

/-- Settles O16: each store is one write of the source register at its effective address. -/
theorem storesCompleteAndChangeOneWord : Obligations.StoresCompleteAndChangeOneWord := by
  refine ⟨fun sr off s => ⟨_, exec_st sr off s, ?_⟩, fun sr off s => ⟨_, exec_sti sr off s, ?_⟩,
    fun sr base off s => ⟨_, exec_str sr base off s, ?_⟩⟩
  · rintro _ rfl
    exact s.writeMem_spec _ _
  · rintro _ rfl
    exact s.writeMem_spec _ _
  · rintro _ rfl
    exact s.writeMem_spec _ _

end Sys2Proof.Machine

/-! Proofs of the statements of 43_control.md: the meanings of BR, JMP, JSR and JSRR with their targets written out (R130 to
R135), when BR is taken and what its word holds, what a call does, then the statements. -/

namespace Sys2Proof.Machine

/-! ## The meanings (R130 to R135) -/

section ControlMeanings

variable (conds : BitVec 3) (off9 : BitVec 9) (off11 : BitVec 11) (base : Reg) (s : State)

theorem exec_br : exec (.br conds off9) s = .next (s.branch conds off9) := rfl

theorem exec_jmp : exec (.jmp base) s = .next (s.setPc (s.reg base)) := rfl

theorem exec_jsr : exec (.jsr off11) s = .next (s.link.setPc (s.pc + sext off11)) := rfl

/-- The base is read after R7 is written (R136), so JSRR R7 goes to the return address. -/
theorem exec_jsrr : exec (.jsrr base) s = .next (s.link.setPc (if base = 7 then s.pc else s.reg base)) := by
  have htarget : s.link.reg base = if base = 7 then s.pc else s.reg base := by
    simp only [State.reg_link, eq_comm]
  rw [← htarget]
  rfl

end ControlMeanings

/-! ## BR (R130) -/

/-- The conjunction BR tests is not zero when one of the three selected bits is set in both operands. -/
theorem conds_and_ne_zero_iff (conds : BitVec 3) (c : Word) :
    conds.setWidth 16 &&& c ≠ 0 ↔ ∃ k < 3, conds.getLsbD k = true ∧ c.getLsbD k = true := by
  rw [Ne, BitVec.eq_of_getLsbD_eq_iff]
  constructor
  · intro h
    obtain ⟨k, -, hconds, hc⟩ : ∃ k < 16, conds.getLsbD k = true ∧ c.getLsbD k = true := by simpa using h
    exact ⟨k, BitVec.lt_of_getLsbD hconds, hconds, hc⟩
  · rintro ⟨k, hk, hconds, hc⟩ hzero
    have hk16 : k < 16 := by omega
    have hbit := hzero k hk16
    rw [BitVec.getLsbD_and, BitVec.getLsbD_setWidth, hconds, hc, decide_eq_true hk16] at hbit
    simp at hbit

/-- What BR does, whole: a jump to its target when taken, and nothing when not. -/
theorem State.branch_spec (s : State) (conds : BitVec 3) (off : BitVec 9) :
    JumpsTo (if ∃ k < 3, conds.getLsbD k = true ∧ s.cond.getLsbD k = true then s.pc + sext off else s.pc) s
      (s.branch conds off) := by
  rcases s.branch_cases conds off with ⟨htaken, hb⟩ | ⟨hnot, hb⟩
  · rw [if_pos ((conds_and_ne_zero_iff _ _).mp htaken), hb]
    exact s.setPc_spec _
  · rw [if_neg fun hsel => (conds_and_ne_zero_iff _ _).mpr hsel hnot, hb]
    exact s.setPc_spec s.pc

theorem toNat_encode_br (conds : BitVec 3) (off : BitVec 9) :
    (encode (.br conds off)).toNat = conds.toNat * 2 ^ 9 + off.toNat := by
  have hop : Opcode.sentinel.bits.toNat = 0 := rfl
  rw [encode, wordPc9, toNat_append_eq, toNat_append_eq, hop]
  omega

/-- The unit reads back from BR's word the operands that were encoded (30_encoding.md R68). -/
theorem brUnit_encode_br (s : State) (conds : BitVec 3) (off : BitVec 9) :
    brUnit s (encode (.br conds off)) = s.branch conds off := by
  obtain ⟨-, hconds, hoff⟩ := field_pc9 Opcode.sentinel.bits conds off
  rw [brUnit, encode, wordPc9, fieldConds, fieldPCoffset9, hconds, hoff]

/-! ## Calls (R134 to R136) -/

/-- What a call does, whole: R7 takes the old PC, PC the target, and nothing else changes. -/
theorem State.link_setPc_spec (s : State) (target : Word) : CallsTo target s (s.link.setPc target) :=
  ⟨s.reg_setReg_same 7 s.pc, rfl, fun _ hr => s.reg_setReg_ne hr.symm s.pc, rfl, fun _ => rfl, rfl, rfl, rfl⟩

/-! ## The statements -/

/-- Settles O17: BR is `State.branch`, and its word holds its operands in the fields `brUnit` reads. -/
theorem branchIsTakenOnASelectedCondition : Obligations.BranchIsTakenOnASelectedCondition := by
  refine ⟨fun conds off s => ⟨_, exec_br conds off s, s.branch_spec conds off⟩, fun s ir => ?_, fun s conds off => ?_⟩
  · exact exec_br (fieldConds ir) (fieldPCoffset9 ir) s
  · refine ⟨toNat_encode_br conds off, brUnit_encode_br s conds off, ?_⟩
    rw [brUnit_encode_br, exec_br]

/-- Settles O18: JMP sets PC to its base register, RET's R7 as any other. -/
theorem jmpCompletesAtTheBaseRegister : Obligations.JmpCompletesAtTheBaseRegister :=
  fun base s => ⟨_, exec_jmp base s, s.setPc_spec _⟩

/-- Settles O19: both calls link, then jump; only JSRR's target, the base register, can be what the link wrote. -/
theorem callsLinkBeforeTheTarget : Obligations.CallsLinkBeforeTheTarget :=
  ⟨fun off s => ⟨_, exec_jsr off s, s.link_setPc_spec _⟩, fun base s => ⟨_, exec_jsrr base s, s.link_setPc_spec _⟩⟩

end Sys2Proof.Machine

/-! Proofs of the statements of 44_trap.md: the bytes of a word as numbers, then the traps in three groups, each with what they
do before the statements about them: the reads of the input stream (GETC, IN), the traps that emit or stop without a
condition (OUT, HALT, an invalid vector), and the two string scans (PUTS, PUTSP). The scans themselves are those of
`putsBytes_eq_some` and `putspBytes_eq_some`; what is added here is that 65536 words are enough for every string that ends. -/

namespace Sys2Proof.Machine

/-! ## The bytes of a word (20_memory.md R43) -/

theorem toNat_lowByte (w : Word) : (lowByte w).toNat = w.toNat % 256 := by
  simp [lowByte]

theorem toNat_highByte (w : Word) : (highByte w).toNat = w.toNat / 256 := by
  have := w.isLt
  simp only [highByte, BitVec.extractLsb'_toNat, Nat.shiftRight_eq_div_pow]
  omega

theorem lowByte_eq_ofNat (w : Word) : lowByte w = BitVec.ofNat 8 (w.toNat % 256) := by
  rw [← toNat_lowByte, BitVec.ofNat_toNat, BitVec.setWidth_eq]

theorem lowByte_eq_zero_iff (w : Word) : lowByte w = 0x00 ↔ w.toNat % 256 = 0 := by
  rw [← toNat_lowByte, ← BitVec.toNat_inj]
  rfl

theorem highByte_eq_zero_iff (w : Word) : highByte w = 0x00 ↔ w.toNat / 256 = 0 := by
  rw [← toNat_highByte, ← BitVec.toNat_inj]
  rfl

/-! ## GETC and IN (R141, R150, R153) -/

theorem InStream.readByte_of_pending {i : InStream} {b : Byte} {rest : List Byte} (h : i.pending = b :: rest) :
    i.readByte = some (some b, { i with pending := rest }) := by
  rw [InStream.readByte, h]

theorem InStream.readByte_of_ended {i : InStream} (h : i = ⟨[], true⟩) : i.readByte = some (none, i) := by
  subst h
  rfl

/-- A register write after moves of the console alone is a whole read. -/
theorem Reads.of_console {s t : State} {bs : List Byte} (h : t = { s with input := t.input, output := s.output ++ bs })
    (v : Word) : Reads v t.input bs s (t.setReg 0 v) := by
  rw [h]
  exact ⟨State.reg_setReg_same _ 0 v, rfl, rfl, fun r hr => State.reg_setReg_ne _ hr.symm v, rfl, rfl, fun _ => rfl, rfl⟩

section StreamTraps

variable {s : State} {x : Option Byte} {rest : InStream}

/-- Where the stream answers, GETC takes the answer into R0. -/
theorem exec_trapGetc_of_readByte (h : s.input.readByte = some (x, rest)) :
    ∃ t, exec .trapGetc s = .next t ∧ Reads (zext8 (x.getD Config.inputEndByte)) rest [] s t := by
  simp only [exec, execTrapGetc, State.inByte_of_readByte h]
  refine ⟨_, rfl, Reads.of_console (t := { s with input := rest }) ?_ _⟩
  rw [List.append_nil]

/-- Where the stream answers, IN emits the prompt, takes the answer into R0 and echoes it. -/
theorem exec_trapIn_of_readByte (h : s.input.readByte = some (x, rest)) :
    ∃ t, exec .trapIn s = .next t ∧
      Reads (zext8 (x.getD Config.inputEndByte)) rest (Config.inPrompt ++ [x.getD Config.inputEndByte]) s t := by
  simp only [exec, execTrapIn, State.inByte_of_readByte (s := s.emitString Config.inPrompt) h]
  refine ⟨_, rfl, Reads.of_console (t := State.emit { s.emitString Config.inPrompt with input := rest } _) ?_ _⟩
  rw [← List.append_assoc]
  rfl

theorem exec_trapGetc_of_blocked (h : s.input = ⟨[], false⟩) : exec .trapGetc s = .fault (.blockedOnInput []) := by
  simp only [exec, execTrapGetc, s.inByte_eq_none_iff.mpr h]

theorem exec_trapIn_of_blocked (h : s.input = ⟨[], false⟩) :
    exec .trapIn s = .fault (.blockedOnInput Config.inPrompt) := by
  simp only [exec, execTrapIn, (s.emitString Config.inPrompt).inByte_eq_none_iff.mpr h]

end StreamTraps

/-- Settles O22: the stream answers with its oldest byte or its end, or does not answer. -/
theorem getcReadsOneByteOrTheEndOrBlocks : Obligations.GetcReadsOneByteOrTheEndOrBlocks := by
  refine ⟨fun b rest s h => ?_, fun s h => ?_, fun s h => exec_trapGetc_of_blocked h⟩
  · rw [← zext8_eq_ofNat]
    exact exec_trapGetc_of_readByte (InStream.readByte_of_pending h)
  · exact exec_trapGetc_of_readByte (InStream.readByte_of_ended h)

/-- Settles O23: the same three answers of the stream, each after the prompt. -/
theorem inPromptsReadsAndEchoes : Obligations.InPromptsReadsAndEchoes := by
  refine ⟨fun b rest s h => ?_, fun s h => ?_, fun s h => exec_trapIn_of_blocked h⟩
  · rw [← zext8_eq_ofNat]
    exact exec_trapIn_of_readByte (InStream.readByte_of_pending h)
  · exact exec_trapIn_of_readByte (InStream.readByte_of_ended h)

/-! ## OUT, HALT and an invalid vector (R151, R155, R156) -/

theorem exec_trapOut (s : State) : exec .trapOut s = .next (s.emitString [lowByte (s.reg 0)]) := rfl

theorem exec_trapHalt (s : State) : exec .trapHalt s = .next ((s.emitString Config.haltNotice).halt .trapHalt) := rfl

theorem exec_trapInvalid (v : BitVec 8) (s : State) : exec (.trapInvalid v) s = .next (s.raiseFault (.invalidTrapVector v)) :=
  rfl

/-- What emitting and then halting does, whole. -/
theorem State.emitString_halt_spec (s : State) (bs : List Byte) (reason : HaltReason) :
    StopsAs (.halted reason) bs s ((s.emitString bs).halt reason) :=
  ⟨rfl, rfl, fun _ => rfl, rfl, rfl, fun _ => rfl, rfl⟩

/-- What taking the fault does, whole (60_exceptions.md R161). -/
theorem State.raiseFault_spec (s : State) (cause : Cause) : StopsAs (.faulted cause) [] s (s.raiseFault cause) :=
  ⟨rfl, (List.append_nil s.output).symm, fun _ => rfl, rfl, rfl, fun _ => rfl, rfl⟩

/-- Settles O24: OUT emits the low byte of R0, which is its number modulo 256. -/
theorem outEmitsTheLowByte : Obligations.OutEmitsTheLowByte := by
  intro s
  rw [← lowByte_eq_ofNat]
  exact ⟨_, exec_trapOut s, s.emitString_spec _⟩

/-- Settles O28: HALT emits the notice and halts. -/
theorem haltEmitsTheNoticeAndStops : Obligations.HaltEmitsTheNoticeAndStops :=
  fun s => ⟨_, exec_trapHalt s, s.emitString_halt_spec _ _⟩

/-- Settles O29: an invalid vector takes the fault, which changes the run state alone. -/
theorem invalidVectorFaultsPrecisely : Obligations.InvalidVectorFaultsPrecisely :=
  fun v s => ⟨_, exec_trapInvalid v s, s.raiseFault_spec _⟩

/-! ## PUTS and PUTSP by their scans (R152, R154) -/

section StringTraps

variable {s : State} {bs : List Byte}

theorem exec_trapPuts_of_some (h : putsBytes s.mem Config.memoryWords (s.reg 0) = some bs) :
    exec .trapPuts s = .next (s.emitString bs) := by
  simp only [exec, execTrapPuts, h]

theorem exec_trapPutsp_of_some (h : putspBytes s.mem Config.memoryWords (s.reg 0) = some bs) :
    exec .trapPutsp s = .next (s.emitString bs) := by
  simp only [exec, execTrapPutsp, h]

theorem exec_trapPuts_eq_unterminated_iff :
    exec .trapPuts s = .fault .unterminatedString ↔ putsBytes s.mem Config.memoryWords (s.reg 0) = none := by
  cases h : putsBytes s.mem Config.memoryWords (s.reg 0) with
  | some bs => simp [exec_trapPuts_of_some h]
  | none => simp [exec, execTrapPuts, h]

theorem exec_trapPutsp_eq_unterminated_iff :
    exec .trapPutsp s = .fault .unterminatedString ↔ putspBytes s.mem Config.memoryWords (s.reg 0) = none := by
  cases h : putspBytes s.mem Config.memoryWords (s.reg 0) with
  | some bs => simp [exec_trapPutsp_of_some h]
  | none => simp [exec, execTrapPutsp, h]

end StringTraps

/-! ## The 65536 words from an address are the whole of memory (20_memory.md R41) -/

theorem forall_wordAt_iff {p : Word → Prop} (a : Word) : (∀ i < Config.memoryWords, p (wordAt a i)) ↔ ∀ b, p b := by
  refine ⟨fun h b => ?_, fun h i _ => h _⟩
  obtain ⟨i, hi, rfl⟩ := exists_wordAt a b
  exact h i hi

section WholeMemory

variable {s : State} {a : Word} {k : Nat}

/-- The bytes of the packed string of `n` words are the two bytes of each word. -/
theorem forall_packedByte_iff {n : Nat} : (∀ j < 2 * n, packedByte s a j ≠ 0x00) ↔
    ∀ i < n, lowByte (s.readMem (wordAt a i)) ≠ 0x00 ∧ highByte (s.readMem (wordAt a i)) ≠ 0x00 := by
  constructor
  · intro h i hi
    have hlow := h (2 * i) (by omega)
    have hhigh := h (2 * i + 1) (by omega)
    rw [packedByte_eq, if_pos (by omega), show 2 * i / 2 = i by omega] at hlow
    rw [packedByte_eq, if_neg (by omega), show (2 * i + 1) / 2 = i by omega] at hhigh
    exact ⟨hlow, hhigh⟩
  · intro h j hj
    obtain ⟨hlow, hhigh⟩ := h (j / 2) (by omega)
    rw [packedByte_eq]
    split
    · exact hlow
    · exact hhigh

/-- The first zero word from an address is met before the addresses wrap to where they began. -/
theorem lt_memoryWords_of_first_zeroWord (hne : ∀ i < k, s.readMem (wordAt a i) ≠ 0x0000)
    (hz : s.readMem (wordAt a k) = 0x0000) : k < Config.memoryWords := by
  obtain ⟨i, hi, heq⟩ := exists_wordAt a (wordAt a k)
  by_contra hk
  exact hne i (by omega) (heq ▸ hz)

/-- So is the first null byte of the packed string: the byte in the same place of the same word. -/
theorem lt_of_first_nullByte (hne : ∀ j < k, packedByte s a j ≠ 0x00) (hz : packedByte s a k = 0x00) :
    k < 2 * Config.memoryWords := by
  obtain ⟨i, hi, heq⟩ := exists_wordAt a (wordAt a (k / 2))
  have hsame : packedByte s a (2 * i + k % 2) = packedByte s a k := by
    rw [packedByte_eq, packedByte_eq, show (2 * i + k % 2) / 2 = i by omega, show (2 * i + k % 2) % 2 = k % 2 by omega, heq]
  by_contra hk
  exact hne (2 * i + k % 2) (by omega) (hsame.trans hz)

end WholeMemory

/-- Settles O25: the zero word is among the words the scan looks at, so the scan gives the low bytes before it. -/
theorem putsEmitsTheStringUpToTheZeroWord : Obligations.PutsEmitsTheStringUpToTheZeroWord := by
  intro s k hne hz
  have hscan := putsBytes_eq_some (lt_memoryWords_of_first_zeroWord hne hz) hne hz
  simp only [← lowByte_eq_ofNat]
  exact ⟨_, exec_trapPuts_of_some hscan, s.emitString_spec _⟩

/-- Settles O26: the null byte is among the bytes the scan looks at, so the scan gives the bytes before it. -/
theorem putspEmitsThePackedBytesUpToTheNull : Obligations.PutspEmitsThePackedBytesUpToTheNull := by
  intro s k hne hz
  have hscan := putspBytes_eq_some (lt_of_first_nullByte hne hz) hne hz
  exact ⟨_, exec_trapPutsp_of_some hscan, s.emitString_spec _⟩

/-- Settles O27: a scan gives nothing exactly when no word it looks at ends the string, and it looks at every word. -/
theorem stringTrapsHangExactlyWithoutATerminator : Obligations.StringTrapsHangExactlyWithoutATerminator := by
  refine fun s => ⟨?_, ?_⟩
  · rw [exec_trapPuts_eq_unterminated_iff, putsBytes_eq_none_iff]
    exact forall_wordAt_iff (p := fun b => s.readMem b ≠ 0x0000) (s.reg 0)
  · rw [exec_trapPutsp_eq_unterminated_iff, putspBytes_eq_none_iff, forall_packedByte_iff]
    simp only [Ne, ← lowByte_eq_zero_iff, ← highByte_eq_zero_iff]
    exact forall_wordAt_iff (p := fun b => ¬ lowByte (s.readMem b) = 0x00 ∧ ¬ highByte (s.readMem b) = 0x00) (s.reg 0)

end Sys2Proof.Machine

/-! Proofs of the statements of 60_exceptions.md. First when an instruction completes and how it stops otherwise (R163), then
what one that completes changes of the run state (R160, R161) and of the console (R173), then the stopped core (R164) and what
the host reads from it at the end (R166). -/

namespace Sys2Proof.Machine

/-! ## Reads of the input stream (10_state.md R33) -/

/-- An answer of `inByte` is an answer of the stream, and leaves the stream as that answer does. -/
theorem State.readByte_of_inByte {s t : State} {b : Byte} (h : s.inByte = some (b, t)) :
    ∃ x, s.input.readByte = some (x, t.input) := by
  unfold State.inByte at h
  split at h
  · next c rest hread => cases h; exact ⟨some b, hread⟩
  · next rest hread => cases h; exact ⟨none, hread⟩
  · cases h

/-- No answer is ready exactly on a stream with no byte and no end. -/
theorem State.not_inputReady_iff (s : State) : ¬ s.inputReady ↔ s.input = ⟨[], false⟩ := by
  rw [← s.inByte_isSome_iff, ← s.inByte_eq_none_iff, Option.eq_none_iff_forall_ne_some]
  simp

/-- `j` is the stream `i` after a read that took at most one byte, the oldest; whether the end is signalled is the same. -/
def InStream.TakesAtMostOne (i j : InStream) : Prop :=
  (∃ bs, i.pending = bs ++ j.pending ∧ bs.length ≤ 1) ∧ j.ended = i.ended

theorem InStream.TakesAtMostOne.refl (i : InStream) : i.TakesAtMostOne i := ⟨⟨[], rfl, Nat.zero_le 1⟩, rfl⟩

theorem InStream.takesAtMostOne_of_readByte {i rest : InStream} {x : Option Byte} (h : i.readByte = some (x, rest)) :
    i.TakesAtMostOne rest := by
  unfold InStream.readByte at h
  split at h
  · next b bs hp => cases h; exact ⟨⟨[b], hp, Nat.le_refl 1⟩, rfl⟩
  · split at h
    · cases h; exact .refl i
    · cases h

/-! ## Completion (R163, 93_implementation_defined.md U6, U7) -/

/-- Where an answer is ready, GETC and IN complete. -/
theorem exec_of_inputReady {i : Instr} (hi : i = .trapGetc ∨ i = .trapIn) {s : State} (h : s.inputReady) :
    ∃ t, exec i s = .next t := by
  obtain ⟨b, u, hb⟩ := s.inByte_isSome_iff.mpr h
  obtain ⟨x, hx⟩ := State.readByte_of_inByte hb
  obtain ⟨t, ht, -⟩ := exec_of_readByte hi hx
  exact ⟨t, ht⟩

/-- A string trap emits what its scan finds, or never ends. -/
theorem exec_stringTrap_cases {i : Instr} (hi : i = .trapPuts ∨ i = .trapPutsp) (s : State) :
    (∃ t, exec i s = .next t) ∨ exec i s = .fault .unterminatedString := by
  rcases hi with rfl | rfl
  · cases h : putsBytes s.mem Config.memoryWords (s.reg 0) with
    | some bs => exact .inl ⟨_, exec_trapPuts_of_some h⟩
    | none => exact .inr (exec_trapPuts_eq_unterminated_iff.mpr h)
  · cases h : putspBytes s.mem Config.memoryWords (s.reg 0) with
    | some bs => exact .inl ⟨_, exec_trapPutsp_of_some h⟩
    | none => exact .inr (exec_trapPutsp_eq_unterminated_iff.mpr h)

/-- The string traps never end exactly where the spec lets them not complete. -/
theorem exec_stringTrap_eq_unterminated_iff {i : Instr} (hi : i = .trapPuts ∨ i = .trapPutsp) (s : State) :
    exec i s = .fault .unterminatedString ↔ ¬ completes i s := by
  obtain ⟨hputs, hputsp⟩ := stringTrapsHangExactlyWithoutATerminator s
  rcases hi with rfl | rfl
  · rw [hputs, completes, State.hasZeroWord, not_exists]
  · rw [hputsp, completes, State.hasNullByte, not_exists]
    simp only [not_or, lowByte_eq_zero_iff, highByte_eq_zero_iff, Ne]

/-- Each instruction completes where the spec lets it, and is in one of the two stuck cycles elsewhere. -/
theorem exec_completes_or_stuck (i : Instr) (s : State) :
    (completes i s ∧ ∃ t, exec i s = .next t) ∨
    (¬ completes i s ∧ ((∃ bs, exec i s = .fault (.blockedOnInput bs)) ∨ exec i s = .fault .unterminatedString)) := by
  by_cases hc : completes i s
  · refine .inl ⟨hc, ?_⟩
    cases i with
    | trapGetc => exact exec_of_inputReady (.inl rfl) hc
    | trapIn => exact exec_of_inputReady (.inr rfl) hc
    | trapPuts =>
      exact (exec_stringTrap_cases (.inl rfl) s).resolve_right
        fun hf => (exec_stringTrap_eq_unterminated_iff (.inl rfl) s).mp hf hc
    | trapPutsp =>
      exact (exec_stringTrap_cases (.inr rfl) s).resolve_right
        fun hf => (exec_stringTrap_eq_unterminated_iff (.inr rfl) s).mp hf hc
    | _ => exact ⟨_, rfl⟩
  · refine .inr ⟨hc, ?_⟩
    cases i with
    | trapGetc => exact .inl ⟨_, exec_trapGetc_of_blocked (s.not_inputReady_iff.mp hc)⟩
    | trapIn => exact .inl ⟨_, exec_trapIn_of_blocked (s.not_inputReady_iff.mp hc)⟩
    | trapPuts => exact .inr ((exec_stringTrap_eq_unterminated_iff (.inl rfl) s).mpr hc)
    | trapPutsp => exact .inr ((exec_stringTrap_eq_unterminated_iff (.inr rfl) s).mpr hc)
    | _ => exact absurd trivial hc

/-- Settles O32: the two alternatives of `exec_completes_or_stuck` exclude each other, as a fault is no next state. -/
theorem instructionsCompleteExactlyWhenTheSpecLetsThem : Obligations.InstructionsCompleteExactlyWhenTheSpecLetsThem := by
  intro i s
  rcases exec_completes_or_stuck i s with ⟨hc, hnext⟩ | ⟨hc, hstuck⟩
  · exact ⟨iff_of_true hc hnext, fun hno => absurd hc hno⟩
  · refine ⟨iff_of_false hc ?_, fun _ => hstuck⟩
    rintro ⟨t, ht⟩
    rcases hstuck with ⟨bs, hf⟩ | hf
    · rw [ht] at hf; cases hf
    · rw [ht] at hf; cases hf

/-! ## What the host sees of an instruction that completes -/

/-- The changes an instruction makes to the run state (R160), the input stream and the output (R173), and which instructions
make them. -/
structure HostEffect (i : Instr) (s t : State) : Prop where
  run : t.run = s.run ∨ (i = .sentinel ∧ t.run = .halted .sentinel) ∨ (i = .trapHalt ∧ t.run = .halted .trapHalt) ∨
    ∃ v, i = .trapInvalid v ∧ t.run = .faulted (.invalidTrapVector v)
  input : t.input = s.input ∨ ((i = .trapGetc ∨ i = .trapIn) ∧ ∃ x, s.input.readByte = some (x, t.input))
  output : t.output = s.output ∨ ((i = .trapOut ∨ i = .trapPuts ∨ i = .trapIn ∨ i = .trapPutsp ∨ i = .trapHalt) ∧
    ∃ bs, t.output = s.output ++ bs)

theorem exec_hostEffect {i : Instr} {s t : State} (h : exec i s = .next t) : HostEffect i s t := by
  rcases exec_cases h with ⟨-, d, v, -, rfl⟩ | ⟨-, -, -, a, v, rfl⟩ | ⟨-, -, -, a, rfl⟩ | ⟨-, -, -, a, rfl⟩ |
    ⟨-, -, b, u, hread⟩ | ⟨-, -, hi, bs, rfl⟩ | ⟨hi, rfl⟩ | ⟨hi, rfl⟩ | ⟨v, hi, rfl⟩ | ⟨-, rfl⟩
  · exact ⟨.inl rfl, .inl rfl, .inl rfl⟩
  · exact ⟨.inl rfl, .inl rfl, .inl rfl⟩
  · exact ⟨.inl rfl, .inl rfl, .inl rfl⟩
  · exact ⟨.inl rfl, .inl rfl, .inl rfl⟩
  · rcases hread with ⟨hi, hb, rfl⟩ | ⟨hi, hb, rfl⟩ <;> obtain ⟨x, hx⟩ := State.readByte_of_inByte hb <;>
      rw [State.inByte_frame hb]
    · exact ⟨.inl rfl, .inr ⟨.inl hi, x, hx⟩, .inl rfl⟩
    · exact ⟨.inl rfl, .inr ⟨.inr hi, x, hx⟩,
        .inr ⟨.inr (.inr (.inl hi)), _, List.append_assoc s.output Config.inPrompt [b]⟩⟩
  · have hemits : i = .trapOut ∨ i = .trapPuts ∨ i = .trapIn ∨ i = .trapPutsp ∨ i = .trapHalt := by
      rcases hi with rfl | rfl | rfl <;> simp
    exact ⟨.inl rfl, .inl rfl, .inr ⟨hemits, bs, rfl⟩⟩
  · exact ⟨.inr (.inl ⟨hi, rfl⟩), .inl rfl, .inl rfl⟩
  · exact ⟨.inr (.inr (.inl ⟨hi, rfl⟩)), .inl rfl, .inr ⟨.inr (.inr (.inr (.inr hi))), _, rfl⟩⟩
  · exact ⟨.inr (.inr (.inr ⟨v, hi, rfl⟩)), .inl rfl, .inl rfl⟩
  · exact ⟨.inl rfl, .inl rfl, .inl rfl⟩

/-- Only an invalid vector takes a core that was running to FAULTED. -/
theorem trapInvalid_of_exec_faulted {i : Instr} {s t : State} {c : Cause} (h : exec i s = .next t)
    (hrun : s.run = .running) (hfault : t.run = .faulted c) : ∃ v, i = .trapInvalid v ∧ c = .invalidTrapVector v := by
  rcases (exec_hostEffect h).run with hsame | ⟨-, hhalt⟩ | ⟨-, hhalt⟩ | ⟨v, hi, hv⟩
  · rw [hfault, hrun] at hsame; cases hsame
  · rw [hfault] at hhalt; cases hhalt
  · rw [hfault] at hhalt; cases hhalt
  · rw [hfault] at hv; cases hv; exact ⟨v, hi, rfl⟩

/-! ## The fault (R160, R161) -/

/-- A word that decodes to the invalid vector `v` is a TRAP word that holds `v`, and `v` is not valid. -/
theorem trap_of_decodeWord_eq_trapInvalid {w : Word} {v : BitVec 8} (h : decodeWord w = .trapInvalid v) :
    opcodeOf w = .trap ∧ v = fieldTrapvect8 w ∧ validTrapVector v = false := by
  have hagree := fieldsAgree_encode_decodeWord w
  have hwf := (decodeWord_wf_dispatched w).1
  rw [h] at hagree hwf
  obtain ⟨hop, hv⟩ : opcodeOf w = .trap ∧ v = fieldTrapvect8 w := by
    simpa [FieldsAgree, readFields, encode, eq_comm] using hagree
  exact ⟨hop, hv, by simpa [Instr.wf] using hwf⟩

/-- Settles O34: only an invalid vector takes a running core to FAULTED, and the word it was decoded from is a TRAP's. -/
theorem onlyAnInvalidVectorFaults : Obligations.OnlyAnInvalidVectorFaults := by
  intro s t c hrun h hfault
  rw [step_running hrun] at h
  obtain ⟨v, hi, rfl⟩ := trapInvalid_of_exec_faulted h hrun hfault
  obtain ⟨hop, hv, hinvalid⟩ := trap_of_decodeWord_eq_trapInvalid hi
  have hlow : v = lowByte s.fetch := hv
  refine ⟨(opcodeOf_eq_iff _ .trap).mp hop, ?_, by rw [hlow, lowByte_eq_ofNat]⟩
  rw [← toNat_lowByte, ← hlow]
  simpa [validTrapVector] using hinvalid

/-! ## The console (R173) -/

/-- Settles O39: an instruction leaves the stream or takes one answer of it, and leaves the output or appends to it. -/
theorem onlyTheTrapsUseTheConsole : Obligations.OnlyTheTrapsUseTheConsole := by
  intro i s t h
  obtain ⟨-, hinput, houtput⟩ := exec_hostEffect h
  have htakes : s.input.TakesAtMostOne t.input := by
    rcases hinput with hsame | ⟨-, x, hread⟩
    · exact hsame ▸ .refl _
    · exact InStream.takesAtMostOne_of_readByte hread
  have happends : ∃ bs, t.output = s.output ++ bs := by
    rcases houtput with hsame | ⟨-, hbs⟩
    · exact ⟨[], by rw [hsame, List.append_nil]⟩
    · exact hbs
  exact ⟨fun hne => (hinput.resolve_left hne).1, fun hne => (houtput.resolve_left hne).1, happends, htakes⟩

/-! ## The stopped core (R164) and the exit indication (R166) -/

/-- Settles O33, by induction on the number of steps: a step of a stopped core is no move. -/
theorem stoppedCoreNeverChanges : Obligations.StoppedCoreNeverChanges := by
  intro s k hstopped
  induction k with
  | zero => rfl
  | succ k ih => rw [steps, step_stopped hstopped]; exact ih

/-- A core that has just booted is running (70_reset_and_hazards.md R180). -/
theorem run_of_boot_eq_ok {images : List Image} {input : InStream} {s : State} (h : boot images input = .ok s) :
    s.run = .running := by
  obtain ⟨m, -, rfl⟩ := boot_eq_ok h
  rfl

theorem State.exitIndication_of_running {s : State} (h : s.run = .running) : s.exitIndication = none := by
  rw [State.exitIndication, h]

theorem State.exitIndication_of_halted {s : State} {r : HaltReason} (h : s.run = .halted r) :
    s.exitIndication = some .success := by
  rw [State.exitIndication, h]

theorem State.exitIndication_of_faulted {s : State} {c : Cause} (h : s.run = .faulted c) :
    s.exitIndication = some .failure := by
  rw [State.exitIndication, h]

/-- Settles O45: the run state fixes the indication, and a boot that succeeds gives none, as its core is running. -/
theorem exitIndicationFollowsTheRunState : Obligations.ExitIndicationFollowsTheRunState := by
  refine ⟨fun s => ?_, fun images input => ?_⟩
  · cases hrun : s.run with
    | running => simp [State.exitIndication_of_running hrun]
    | halted r => simp [State.exitIndication_of_halted hrun]
    | faulted c => simp [State.exitIndication_of_faulted hrun]
  · cases hboot : boot images input with
    | error e => exact iff_of_true ⟨e, rfl⟩ rfl
    | ok s => simp [bootExit, State.exitIndication_of_running (run_of_boot_eq_ok hboot)]

end Sys2Proof.Machine

/-! Proofs of the statements of 70_reset_and_hazards.md about the loader and the boot: what a copy leaves to read (R183,
R184), the checks of one image in their order (R185), and the images one after another up to the first failure (R186, R187).
Then the start of a run (R180 to R182). -/

namespace Sys2Proof.Machine

/-! ## The words of an image (R183) -/

theorem bigEndian_toNat (b0 b1 : Byte) : (bigEndian b0 b1).toNat = b0.toNat * 256 + b1.toNat :=
  toNat_append_eq b0 b1

theorem length_imageWords : ∀ bytes : List Byte, (imageWords bytes).length = bytes.length / 2
  | [] => rfl
  | [_] => by simp [imageWords]
  | _ :: _ :: rest => by
    rw [imageWords, List.length_cons, length_imageWords rest]
    simp only [List.length_cons]
    omega

/-- The pair of bytes `2 * i` and `2 * i + 1` is word `i`. -/
theorem getElem?_imageWords {hi lo : Byte} : ∀ {bytes : List Byte} {i : Nat}, bytes[2 * i]? = some hi →
    bytes[2 * i + 1]? = some lo → (imageWords bytes)[i]? = some (bigEndian hi lo)
  | [], _, _, hlo | [_], _, _, hlo => by simp at hlo
  | _ :: _ :: _, 0, hhi, hlo => by
    cases hhi
    cases hlo
    rfl
  | _ :: _ :: rest, i + 1, hhi, hlo => getElem?_imageWords (bytes := rest) hhi hlo

/-! ## The copy (R184) -/

/-- A copy of no more words than there are addresses overwrites none of its own: the word at distance `i` from the origin is
the `i`-th, and beyond the last the memory is the old one. -/
theorem Memory.read_copyWords (m : Memory) (a b : Word) {ws : List Word} (hlen : ws.length ≤ 65536) :
    (copyWords m a ws).read b = ws[(b - a).toNat]?.getD (m.read b) := by
  induction ws generalizing m a with
  | nil => rfl
  | cons w ws ih =>
    rw [List.length_cons] at hlen
    rw [copyWords, ih (m.write a w) (a + 1) (by omega), Memory.read_write]
    by_cases hab : a = b
    · subst hab
      have hlast : (a - (a + 1)).toNat = 65535 := by bv_omega
      have hbeyond : ws[65535]? = none := List.getElem?_eq_none (by omega)
      rw [hlast, hbeyond]
      simp
    · have hnext : (b - a).toNat = (b - (a + 1)).toNat + 1 := by bv_omega
      simp [hnext, hab]

theorem Memory.read_copyWords_at {m : Memory} {a w : Word} {ws : List Word} {i : Nat} (hfits : a.toNat + ws.length ≤ 65536)
    (hw : ws[i]? = some w) : (copyWords m a ws).read (BitVec.ofNat 16 (a.toNat + i)) = w := by
  obtain ⟨hi, -⟩ := List.getElem?_eq_some_iff.mp hw
  have hdist : (BitVec.ofNat 16 (a.toNat + i) - a).toNat = i := by bv_omega
  rw [Memory.read_copyWords m a _ (by omega), hdist, hw, Option.getD_some]

theorem Memory.read_copyWords_outside {m : Memory} {a b : Word} {ws : List Word} (hfits : a.toNat + ws.length ≤ 65536)
    (hb : b.toNat < a.toNat ∨ a.toNat + ws.length ≤ b.toNat) : (copyWords m a ws).read b = m.read b := by
  have hbeyond : ws.length ≤ (b - a).toNat := by bv_omega
  rw [Memory.read_copyWords m a b (by omega), List.getElem?_eq_none hbeyond, Option.getD_none]

/-! ## The checks of one image (R185) -/

section Checks

variable (m : Memory) {b0 b1 : Byte} {body : List Byte}

theorem loadImage_of_odd (hodd : body.length % 2 = 1) : loadImage m (some (b0 :: b1 :: body)) = .error .oddLength := by
  rw [loadImage, if_pos hodd]

theorem loadImage_of_overflow (heven : body.length % 2 = 0) (hover : 65536 < (bigEndian b0 b1).toNat + body.length / 2) :
    loadImage m (some (b0 :: b1 :: body)) = .error .overflow := by
  rw [loadImage, if_neg (by omega), if_pos hover]

theorem loadImage_of_fits (heven : body.length % 2 = 0) (hfits : (bigEndian b0 b1).toNat + body.length / 2 ≤ 65536) :
    loadImage m (some (b0 :: b1 :: body)) = .ok (copyWords m (bigEndian b0 b1) (imageWords body)) := by
  rw [loadImage, if_neg (by omega), if_neg (Nat.not_lt.mpr hfits)]

/-- An image that loads has passed both checks, and what it leaves is the copy. -/
theorem loadImage_eq_ok {m m' : Memory} (h : loadImage m (some (b0 :: b1 :: body)) = .ok m') :
    (bigEndian b0 b1).toNat + body.length / 2 ≤ 65536 ∧ m' = copyWords m (bigEndian b0 b1) (imageWords body) := by
  rcases Nat.mod_two_eq_zero_or_one body.length with heven | hodd
  · rcases Nat.lt_or_ge 65536 ((bigEndian b0 b1).toNat + body.length / 2) with hover | hfits
    · rw [loadImage_of_overflow m heven hover] at h; cases h
    · rw [loadImage_of_fits m heven hfits] at h; cases h; exact ⟨hfits, rfl⟩
  · rw [loadImage_of_odd m hodd] at h; cases h

end Checks

/-- Settles O48: the image that loads is the copy of its words, which fits below the end of memory. -/
theorem validImageIsCopiedVerbatim : Obligations.ValidImageIsCopiedVerbatim := by
  intro m m' b0 b1 body h
  obtain ⟨hfits, rfl⟩ := loadImage_eq_ok h
  rw [← bigEndian_toNat, ← length_imageWords]
  rw [← length_imageWords] at hfits
  refine ⟨hfits, fun i hi lo hhi hlo => ?_, fun a ha => Memory.read_copyWords_outside hfits ha⟩
  rw [Memory.read_copyWords_at hfits (getElem?_imageWords hhi hlo), bigEndian_toNat]

/-- Settles O49. -/
theorem loadErrorsAreCheckedInOrder : Obligations.LoadErrorsAreCheckedInOrder := by
  intro m
  refine ⟨rfl, fun bytes hshort => ?_, fun _ _ _ => loadImage_of_odd m, fun b0 b1 body heven hover => ?_,
    fun b0 b1 body heven hfits => ?_⟩
  · match bytes, hshort with
    | [], _ | [_], _ => rfl
  · exact loadImage_of_overflow m heven (by rwa [bigEndian_toNat])
  · exact ⟨_, loadImage_of_fits m heven (by rwa [bigEndian_toNat])⟩

/-! ## Images in order (R186, R187) -/

/-- Images that load hand their memory to the images after them. -/
theorem loadImages_append {m m' : Memory} {before : List Image} (h : loadImages m before = .ok m') (after : List Image) :
    loadImages m (before ++ after) = loadImages m' after := by
  induction before generalizing m with
  | nil => cases h; rfl
  | cons image before ih =>
    rw [List.cons_append, loadImages]
    rw [loadImages] at h
    cases himage : loadImage m image with
    | error e => rw [himage] at h; cases h
    | ok m₁ => rw [himage] at h; exact ih h

/-- Settles O50: the images before leave the memory of their boot (`loadImages_append`), over which the next one loads or
fails. -/
theorem imagesLoadInOrderOrTheFirstFailureStops : Obligations.ImagesLoadInOrderOrTheFirstFailureStops := by
  intro before after image input s hboot
  obtain ⟨m₀, hbefore, rfl⟩ := boot_eq_ok hboot
  refine ⟨fun e himage => ?_, fun m himage => ?_⟩
  · rw [boot, loadImages_append hbefore, loadImages, himage]
  · rw [boot, loadImages_append hbefore, loadImages, himage]
    rfl

/-! ## The start of a run (R180 to R182) -/

/-- With no image the first word fetched is 0x0000, whose opcode is the sentinel's (40_dispatch.md R91). -/
theorem step_of_boot_nothing (input : InStream) : ∃ s, boot [] input = .ok s ∧
    step s = .next { s with pc := 0x3001, run := .halted .sentinel } := by
  have hfetch : { State.reset with input := input }.fetch = 0x0000 := Memory.read_empty State.reset.pc
  exact ⟨_, rfl, step_of_opcode_sentinel rfl (by rw [hfetch]; rfl)⟩

/-- Settles O51: a boot is reset with the loaded memory and the host's stream. -/
theorem bootAlwaysStartsAtTheFixedPc : Obligations.BootAlwaysStartsAtTheFixedPc := by
  refine ⟨fun images input s hboot => ?_, step_of_boot_nothing⟩
  obtain ⟨m, -, rfl⟩ := boot_eq_ok hboot
  exact ⟨State.reset_pc, State.reset_run, State.reset_output, rfl, rfl, fun _ => rfl⟩

end Sys2Proof.Machine
